-- ==== Sys2Proof/Word.lean ====
section
/-! DEFINITION. The word types (00_scope.md R9): parallel bit vectors, bit 0 the least significant (R8). -/

namespace Sys2Proof

/-- One byte of a serialised word (20_memory.md R40). -/
abbrev Byte := BitVec 8

/-- `u32`: the packed word (00_scope.md R9). -/
abbrev Word := BitVec 32

/-- `f32`: an IEEE 754 binary32 datum held as its 32 bits (00_scope.md R9, 40_primitives.md R80). -/
abbrev F32 := BitVec 32

end Sys2Proof
end

