-- ==== Sys2Proof/Config.lean ====
section
/-! DEFINITION. The parameters of the hardware (00_scope.md R7, R18), its identity (R3), and the free
values of the data outputs that the spec leaves unspecified (10_state.md R33). -/

namespace Sys2Proof

/-- `RADICAND_POLICY` (42_decoder.md R124): what UNPACK does with a negative radicand. -/
inductive RadicandPolicy where
  /-- Replace a negative radicand by +0.0 before the square root. -/
  | clamp
  /-- Take the square root of the negative radicand, which is a NaN. -/
  | nan
deriving DecidableEq, Repr

/-- The build-time parameters that 00_scope.md R7 marks open, with the spec's defaults. -/
structure Config where
  /-- `ENC_LATENCY` (70_reset_and_hazards.md R164). -/
  encLatency : Nat := 0
  /-- `DEC_LATENCY` (70_reset_and_hazards.md R164). -/
  decLatency : Nat := 0
  /-- `RADICAND_POLICY` (42_decoder.md R124). -/
  radicandPolicy : RadicandPolicy := .clamp
deriving DecidableEq, Repr

/-- "this hardware": every open parameter at its default (92_eei_decisions.md D4, D10). -/
def Config.normalCodec : Config := {}

/-- The four data outputs (10_state.md R28, R29). -/
inductive OutputPort where
  | encWord
  | decX
  | decY
  | decZ
deriving DecidableEq, Repr

/-- FREE VALUE (10_state.md R33, 93_implementation_defined.md U8): what a data output shows in a clock
cycle whose `valid` output is 0, one value for each output and cycle. It has no body, so nothing can be
proved of it. Log entry 5. -/
opaque Config.unspecified : OutputPort → Nat → BitVec 32

/-- The identifying string of 00_scope.md R3, the spec's own label. -/
def Config.identity : String := "normal_codec/x16y15s1/f32"

/-- `WORD_BITS` (00_scope.md R7). -/
def Config.wordBits : Nat := 32

/-- `X_BITS` (00_scope.md R7). -/
def Config.xBits : Nat := 16

/-- `Y_BITS` (00_scope.md R7). -/
def Config.yBits : Nat := 15

/-- `S_BITS` (00_scope.md R7). -/
def Config.sBits : Nat := 1

/-- `KX`, the scale of the x quantizer (00_scope.md R7). -/
def Config.kx : Nat := 65535

/-- `KY`, the scale of the y quantizer (00_scope.md R7). -/
def Config.ky : Nat := 32767

/-- `Q15_MASK`: 16 bits wide, not 15 (00_scope.md R7, 90_conflicts.md C5). -/
def Config.q15Mask : BitVec 32 := 0x0000FFFF

/-- `EPS` = `epsNum / epsDen`, the real number 5/1000 (42_decoder.md R131). -/
def Config.epsNum : Nat := 5

/-- The denominator of `EPS` (42_decoder.md R131). -/
def Config.epsDen : Nat := 1000

end Sys2Proof
end

