-- ==== Sys2Proof/Syntax.lean ====
section
/-! DEFINITION. The operations: one constructor for each row of spec/opcode_table.json (30_encoding.md
R71), and the operand formats (R60, R61). -/

namespace Sys2Proof

/-- Format `VEC3` (30_encoding.md R61): the three binary32 components of a direction vector. -/
structure Vec3 where
  x : F32
  y : F32
  z : F32
deriving DecidableEq, Repr

/-- One UNPACK result: `VEC3` and `DERR` (30_encoding.md R61, R62). -/
structure DecResult where
  x : F32
  y : F32
  z : F32
  derr : Bool
deriving DecidableEq, Repr

/-- The two operand ports (10_state.md R21); the port selects the operation (30_encoding.md R65). -/
inductive OperandPort where
  /-- `enc_x_i`, `enc_y_i`, `enc_z_i` of `normal_vector_encoder` (10_state.md R28). -/
  | encoder
  /-- `dec_word_i` of `normal_vector_decoder` (10_state.md R29). -/
  | decoder
deriving DecidableEq, Repr

/-- An operand presented at a port: everything a transaction is begun with (00_scope.md R13). -/
inductive Operand where
  /-- Format `VEC3` at the encoder's operand port. -/
  | atEncoder (x y z : F32)
  /-- Format `WORD` at the decoder's operand port. -/
  | atDecoder (w : Word)
deriving DecidableEq, Repr

/-- The rows of spec/opcode_table.json in its order. The last four are internal primitives, which have
no encoding and no port (00_scope.md R2). -/
inductive Instr where
  /-- PACK (41_encoder.md R110). -/
  | pack (x y z : F32)
  /-- UNPACK (42_decoder.md R120). -/
  | unpack (w : Word)
  /-- UNORM, internal (40_primitives.md R95). -/
  | unorm (x : F32)
  /-- Q15, internal (40_primitives.md R96). -/
  | q15 (f : F32)
  /-- Q16, internal (40_primitives.md R97). -/
  | q16 (f : F32)
  /-- SNORM, internal (40_primitives.md R98). -/
  | snorm (q : F32)
deriving DecidableEq, Repr

end Sys2Proof
end

