-- ==== Sys2Proof/WellFormed.lean ====
section
/-! DEFINITION. Which instructions the environment can present. No operand value is ill-formed
(30_encoding.md R66); the one check is that the operation has a port, which the four internal primitives
have not (00_scope.md R2, the table's `"invocable": false`). -/

namespace Sys2Proof

/-- The table's column `invocable`: PACK and UNPACK only (30_encoding.md R71). -/
def Instr.invocable : Instr → Bool
  | .pack _ _ _ => true
  | .unpack _ => true
  | .unorm _ => false
  | .q15 _ => false
  | .q16 _ => false
  | .snorm _ => false

/-- An instruction is well formed when a port can be presented with it. Log entry 12. -/
def Instr.wellFormed (i : Instr) : Bool := i.invocable

end Sys2Proof
end

