-- ==== Sys2Proof/Decode.lean ====
section
/-! DEFINITION. From presented bits to operations and back. The operation is selected by the port
(30_encoding.md R65). Bytes are the big-endian serialisation that 20_memory.md R40 fixes for whoever
stores or sends a word; the block itself takes the parallel bits. -/

namespace Sys2Proof

/-- Byte 0 of a serialised word is bits 31:24, byte 3 is bits 7:0 (20_memory.md R40). -/
def wordOfBytes (b0 b1 b2 b3 : Byte) : Word := b0 ++ b1 ++ b2 ++ b3

/-- The big-endian serialisation of a word (20_memory.md R40, `WIRE_BYTE_ORDER` = big). -/
def bytesOfWord (w : Word) : List Byte :=
  [w.extractLsb' 24 8, w.extractLsb' 16 8, w.extractLsb' 8 8, w.extractLsb' 0 8]

/-- What an operand presented at a port selects (30_encoding.md R65): total, since no operand is illegal
(R66). -/
def decodeOperand : Operand → Instr
  | .atEncoder x y z => .pack x y z
  | .atDecoder w => .unpack w

/-- Why bytes are no operand of a port. -/
inductive DecodeReject where
  /-- The encoder's operand is 12 bytes and the decoder's 4 (20_memory.md R43); `got` bytes were given.
  Safe: the spec gives such bytes no meaning. -/
  | byteCount (p : OperandPort) (got : Nat)
deriving DecidableEq, Repr

/-- The operand a port reads from serialised bytes: x, then y, then z (30_encoding.md R61), each
big-endian (20_memory.md R40). Log entry 10. -/
def operandOfBytes : OperandPort → List Byte → Except DecodeReject Operand
  | .encoder, [x0, x1, x2, x3, y0, y1, y2, y3, z0, z1, z2, z3] =>
    .ok (.atEncoder (wordOfBytes x0 x1 x2 x3) (wordOfBytes y0 y1 y2 y3) (wordOfBytes z0 z1 z2 z3))
  | .decoder, [b0, b1, b2, b3] => .ok (.atDecoder (wordOfBytes b0 b1 b2 b3))
  | p, bytes => .error (.byteCount p bytes.length)

/-- The decoder, total on any bytes: it rejects a wrong number of bytes by name. -/
def decode (p : OperandPort) (bytes : List Byte) : Except DecodeReject Instr :=
  (operandOfBytes p bytes).map decodeOperand

/-- The port and the operand of a well-formed instruction; none for an internal primitive, which "has no
encoding" (spec/opcode_table.json). -/
def Instr.operand? : Instr → Option Operand
  | .pack x y z => some (.atEncoder x y z)
  | .unpack w => some (.atDecoder w)
  | .unorm _ => none
  | .q15 _ => none
  | .q16 _ => none
  | .snorm _ => none

/-- The port an operand is presented at. -/
def Operand.port : Operand → OperandPort
  | .atEncoder _ _ _ => .encoder
  | .atDecoder _ => .decoder

/-- The serialisation of an operand, x first (30_encoding.md R61, 20_memory.md R40). -/
def Operand.bytes : Operand → List Byte
  | .atEncoder x y z => bytesOfWord x ++ bytesOfWord y ++ bytesOfWord z
  | .atDecoder w => bytesOfWord w

/-- The encoder of instructions: the port and the bytes of a well-formed instruction. -/
def encode (i : Instr) : Option (OperandPort × List Byte) :=
  i.operand?.map fun o => (o.port, o.bytes)

/-- The bits of a table word as bytes, most significant first: the table's string writes x in 95:64, y in
63:32, z in 31:0 (30_encoding.md R61), so the big-endian bytes of the string are those of x, y, z. -/
def tableBytes : (n : Nat) → Nat → List Byte
  | 0, _ => []
  | n + 1, w => BitVec.ofNat 8 (w >>> (8 * n)) :: tableBytes n w

/-- The port whose operand has as many bits as a table word: 96 is `VEC3`, 32 is `WORD`
(spec/opcode_table.json, `width`); the primitives' rows have no width. -/
def tablePort : Nat → Option OperandPort
  | 96 => some .encoder
  | 32 => some .decoder
  | _ => none

/-- The instruction this decoder reads from the bits of a row of spec/opcode_table.json. Log entry 11. -/
def decodeTableWord (nbits w : Nat) : Option Instr :=
  (tablePort nbits).bind fun p => (decode p (tableBytes (nbits / 8) w)).toOption

end Sys2Proof
end

