-- ==== Sys2Proof/Machine/Float.lean ====
section
/-! DEFINITION. Binary32 arithmetic exactly as 40_primitives.md sections 1 and 2 fix it: every operation
computes the exact result and rounds it once (R81). An exact magnitude is counted in UNITS of 2^−149, the
smallest positive binary32 value, so every finite datum is a whole number of units. -/

namespace Sys2Proof.Machine

/-! ### The format (R80) -/

/-- The sign `S`, bit 31 (R80). -/
def signBit (a : F32) : Bool := a.getLsbD 31

/-- The biased exponent `E`, bits 30:23 (R80). -/
def expField (a : F32) : Nat := (a.extractLsb' 23 8).toNat

/-- The fraction `F`, bits 22:0 (R80). -/
def fracField (a : F32) : Nat := (a.extractLsb' 0 23).toNat

/-- `E` = 255 and `F` ≠ 0 (R80); quiet and signalling NaNs are treated alike (R89). -/
def isNaN (a : F32) : Bool := expField a == 255 && fracField a != 0

/-- A quiet NaN: bit 22 is 1 (R80). -/
def isQuietNaN (a : F32) : Bool := isNaN a && a.getLsbD 22

/-- `E` = 255 and `F` = 0 (R80). -/
def isInf (a : F32) : Bool := expField a == 255 && fracField a == 0

/-- Zero, subnormal or normal: `E` is not 255 (R80). -/
def isFinite (a : F32) : Bool := expField a != 255

/-- `E` = 0 and `F` = 0: +0.0 or −0.0 (R80). -/
def isZero (a : F32) : Bool := expField a == 0 && fracField a == 0

/-- `E` = 0 and `F` ≠ 0 (R80). -/
def isSubnormal (a : F32) : Bool := expField a == 0 && fracField a != 0

/-- 1 ≤ `E` ≤ 254 (R80). -/
def isNormal (a : F32) : Bool := expField a != 0 && expField a != 255

/-- `F` for a zero or subnormal, 2^23 + `F` for a normal (R80). -/
def significand (a : F32) : Nat := if expField a = 0 then fracField a else 2 ^ 23 + fracField a

/-- The magnitude in units of 2^−149: F for `E` = 0, (2^23 + F)·2^(E−1) else (R80). An infinity has 2^277
units, one binade above every finite magnitude, so that ordering by units orders infinities too. -/
def units (a : F32) : Nat := significand a * 2 ^ (expField a - 1)

/-- The signed value in units of 2^−149 (R80). -/
def signedUnits (a : F32) : Int := if signBit a then -(units a : Int) else (units a : Int)

/-- The datum with sign `s` and the 31 bits `p` below it. -/
def ofSignMag (s : Bool) (p : Nat) : F32 := BitVec.ofBool s ++ BitVec.ofNat 31 p

/-- −b: the sign bit flipped (R83). -/
def fneg (b : F32) : F32 := b ^^^ 0x80000000

/-! ### Constants (00_scope.md R11) -/

/-- 1.0. -/
def fOne : F32 := 0x3F800000

/-- −1.0. -/
def fNegOne : F32 := 0xBF800000

/-- 0.5. -/
def fHalf : F32 := 0x3F000000

/-- 2.0. -/
def fTwo : F32 := 0x40000000

/-- +0.0. -/
def fZero : F32 := 0x00000000

/-- −0.0. -/
def fNegZero : F32 := 0x80000000

/-- 65535.0, `KX` as a binary32 value. -/
def fKX : F32 := 0x477FFF00

/-- 32767.0, `KY` as a binary32 value. -/
def fKY : F32 := 0x46FFFE00

/-- The NaN every invalid operation returns (R89, 92_eei_decisions.md D12). Log entry 7: no statement
rests on its bits. -/
def canonicalNaN : F32 := 0x7FC00000

/-- The infinity of sign `s`. -/
def infinity (s : Bool) : F32 := ofSignMag s 0x7F800000

/-! ### Rounding (R81) -/

/-- `num / den` to the nearest whole number, a tie to the even one. -/
def roundHalfEven (num den : Nat) : Nat :=
  let q := num / den
  let r := num % den
  if 2 * r < den then q else if den < 2 * r then q + 1 else q + q % 2

/-- The 31 bits below the sign of the exact magnitude `num / den` units rounded to nearest, ties to even
(R81). `e` is the binade above the first normal one, where representable magnitudes are 2^e units apart;
the pattern e·2^23 + m steps into the next binade by itself when m reaches 2^24, and everything at or past
the pattern of infinity is infinity. -/
def roundMagnitude (num den : Nat) : Nat :=
  let e := Nat.log2 (num / den) - 23
  min (e * 2 ^ 23 + roundHalfEven num (den * 2 ^ e)) 0x7F800000

/-- The exact value (−1)^s · `num / den` units rounded once to binary32 (R81). -/
def roundF32 (s : Bool) (num den : Nat) : F32 := ofSignMag s (roundMagnitude num den)

/-! ### Arithmetic (R82 to R88) -/

/-- The sum of two finite data (R82): an exact sum of zero is −0.0 only for (−0.0) + (−0.0). -/
def faddFinite (a b : F32) : F32 :=
  let sum := signedUnits a + signedUnits b
  if sum = 0 then ofSignMag (signBit a && signBit b) 0
  else roundF32 (decide (sum < 0)) sum.natAbs 1

/-- `fadd` (R82). -/
def fadd (a b : F32) : F32 :=
  if isNaN a || isNaN b then canonicalNaN
  else if isInf a then (if isInf b && (signBit a != signBit b) then canonicalNaN else a)
  else if isInf b then b
  else faddFinite a b

/-- `fsub` (R83): `fadd` with the second sign flipped. -/
def fsub (a b : F32) : F32 := fadd a (fneg b)

/-- `fmul` (R84): the sign is the exclusive-or of the signs. -/
def fmul (a b : F32) : F32 :=
  let s := signBit a != signBit b
  if isNaN a || isNaN b then canonicalNaN
  else if isInf a || isInf b then (if isZero a || isZero b then canonicalNaN else infinity s)
  else roundF32 s (units a * units b) (2 ^ 149)

/-- `fdiv` (R85): a true division. The block only divides 0 … 65535 by `KX` or `KY`; the other special
operands follow IEEE 754, which R82 names for them (log entry 8). -/
def fdiv (a b : F32) : F32 :=
  let s := signBit a != signBit b
  if isNaN a || isNaN b then canonicalNaN
  else if isInf a then (if isInf b then canonicalNaN else infinity s)
  else if isInf b then ofSignMag s 0
  else if isZero b then (if isZero a then canonicalNaN else infinity s)
  else roundF32 s (units a * 2 ^ 149) (units b)

/-- Bit by bit from bit `k - 1` down, the largest `r'` ≥ `r` with r'·r' ≤ `n`. -/
def isqrtFrom (n : Nat) : (k : Nat) → (r : Nat) → Nat
  | 0, r => r
  | k + 1, r => if (r + 2 ^ k) * (r + 2 ^ k) ≤ n then isqrtFrom n k (r + 2 ^ k) else isqrtFrom n k r

/-- The whole part of the square root of `n`. -/
def isqrt (n : Nat) : Nat := isqrtFrom n (Nat.log2 n / 2 + 1) 0

/-- The correctly rounded root of a magnitude of `u` units. With n = u·2^151 the exact root is √n / 2 units;
every point where rounding changes is a multiple of half a unit, so a root that is not whole rounds as the
middle of its half unit, (2·⌊√n⌋ + 1) / 4, does. -/
def fsqrtUnits (u : Nat) : F32 :=
  let n := u * 2 ^ 151
  let r := isqrt n
  roundF32 false (2 * r + (if r * r = n then 0 else 1)) 4

/-- `fsqrt` (R86). -/
def fsqrt (a : F32) : F32 :=
  if isNaN a then canonicalNaN
  else if isZero a then a
  else if signBit a then canonicalNaN
  else if isInf a then a
  else fsqrtUnits (units a)

/-- `flt` (R87): quiet; the zeros are equal, and the units of an infinity exceed every finite ones'. -/
def flt (a b : F32) : Bool :=
  !isNaN a && !isNaN b && decide (signedUnits a < signedUnits b)

/-- `u2f` (R88). -/
def u2f (n : BitVec 16) : F32 := roundF32 false (n.toNat * 2 ^ 149) 1

/-! ### Rounding to integers and conversion (R93, R94) -/

/-- `rnd_away` (R93): the sign of r and the magnitude ⌊|r| + 1/2⌋. -/
def rndAway (r : F32) : F32 :=
  if isNaN r then canonicalNaN
  else if isInf r then r
  else roundF32 (signBit r) ((2 * units r + 2 ^ 149) / 2 ^ 150 * 2 ^ 149) 1

/-- `f2u_sat` (R94): NaN and everything not above zero give 0, everything from 2^32 up gives 0xFFFFFFFF, any
other integer itself. DESIGN CHOICE, log entry 20: a datum between 0 and 2^32 that is no integer, which R11 and R94
do not define and `rnd_away` never gives, is truncated. -/
def f2uSat (r : F32) : BitVec 32 :=
  if isNaN r then 0
  else if signBit r || isZero r then 0
  else if 2 ^ 32 * 2 ^ 149 ≤ units r then 0xFFFFFFFF
  else BitVec.ofNat 32 (units r / 2 ^ 149)

end Sys2Proof.Machine
end

