-- ==== Sys2Proof/Machine/Flags.lean ====
section
/-! DEFINITION. The two one-bit results. The hardware has no flag register (10_state.md R23); these travel
with a result. -/

namespace Sys2Proof.Machine

/-- The sign flag of PACK: s = flt(z, +0.0) (41_encoder.md R111), not the sign bit of z. -/
def zSignFlag (z : F32) : Bool := flt z fZero

/-- The domain-error flag of UNPACK: `dec_derr_o` = flt(rad, +0.0) (42_decoder.md R126). -/
def domainErrorFlag (rad : F32) : Bool := flt rad fZero

end Sys2Proof.Machine
end

