-- ==== Sys2Proof/Machine/Operands.lean ====
section
/-! DEFINITION. The fields of the packed word (30_encoding.md R60): taking them apart (R63, 42_decoder.md
R121) and putting them together (R64, 41_encoder.md R112). -/

namespace Sys2Proof.Machine

/-- `cx` = w[31:16] (30_encoding.md R63). -/
def fieldX (w : Word) : BitVec 16 := w.extractLsb' 16 16

/-- `cy` = w[15:1] (30_encoding.md R63). -/
def fieldY (w : Word) : BitVec 15 := w.extractLsb' 1 15

/-- `a` = w[0] (30_encoding.md R63). -/
def fieldS (w : Word) : Bool := w.getLsbD 0

/-- w = ux[15:0] ∥ uy[14:0] ∥ s (41_encoder.md R112): the wider bits of both codes go nowhere. -/
def composeWord (ux : BitVec 32) (uy : BitVec 16) (s : Bool) : Word :=
  ux.extractLsb' 0 16 ++ uy.extractLsb' 0 15 ++ BitVec.ofBool s

end Sys2Proof.Machine
end

