-- ==== Sys2Proof/Machine/Codec.lean ====
section
/-! DEFINITION. The four mapping primitives (40_primitives.md R95 to R98) and the two functions of the
hardware built from them: PACK (41_encoder.md R110) and UNPACK (42_decoder.md R120). Pure functions of
the operand (20_memory.md R43). -/

namespace Sys2Proof.Machine

/-- UNORM (40_primitives.md R95): (x + 1)·0.5, each step rounded. -/
def unorm (x : F32) : F32 := fmul (fadd x fOne) fHalf

/-- Q15 (40_primitives.md R96): the mask keeps 16 bits although the code has 15. -/
def q15 (f : F32) : BitVec 16 := (f2uSat (rndAway (fmul f fKY)) &&& Config.q15Mask).extractLsb' 0 16

/-- Q16 (40_primitives.md R97): no mask. -/
def q16 (f : F32) : BitVec 32 := f2uSat (rndAway (fmul f fKX))

/-- SNORM (40_primitives.md R98): x·2 − 1, each step rounded. -/
def snorm (q : F32) : F32 := fsub (fmul q fTwo) fOne

/-- PACK's word (41_encoder.md R110 to R112). -/
def packWord (v : Vec3) : Word := composeWord (q16 (unorm v.x)) (q15 (unorm v.y)) (zSignFlag v.z)

/-- `fx` of an x code (42_decoder.md R122). -/
def decodeX (cx : BitVec 16) : F32 := snorm (fdiv (u2f cx) fKX)

/-- `fy` of a y code (42_decoder.md R122). -/
def decodeY (cy : BitVec 15) : F32 := snorm (fdiv (u2f (cy.setWidth 16)) fKY)

/-- `rad` = 1 − (fx² + fy²), the squares added first (42_decoder.md R123, 90_conflicts.md C7). -/
def radicand (fx fy : F32) : F32 := fsub fOne (fadd (fmul fx fx) (fmul fy fy))

/-- `r0`: what the square root is taken of (42_decoder.md R124). -/
def guardRadicand (policy : RadicandPolicy) (rad : F32) : F32 :=
  match policy with
  | .clamp => if domainErrorFlag rad then fZero else rad
  | .nan => rad

/-- `fz` = mag · sgn (42_decoder.md R125). -/
def signedRoot (r0 : F32) (a : Bool) : F32 := fmul (fsqrt r0) (if a then fNegOne else fOne)

/-- UNPACK's result (42_decoder.md R120 to R126). -/
def unpackWord (policy : RadicandPolicy) (w : Word) : DecResult :=
  let fx := decodeX (fieldX w)
  let fy := decodeY (fieldY w)
  let rad := radicand fx fy
  { x := fx, y := fy, z := signedRoot (guardRadicand policy rad) (fieldS w), derr := domainErrorFlag rad }

/-- The vector of a result, as an encoder operand. -/
def resultVec (r : DecResult) : Vec3 := ⟨r.x, r.y, r.z⟩

/-- ROUNDTRIP (30_encoding.md R69): PACK, then UNPACK. -/
def roundTrip (policy : RadicandPolicy) (v : Vec3) : DecResult := unpackWord policy (packWord v)

/-- REPACK (30_encoding.md R69): UNPACK, then PACK. -/
def repack (policy : RadicandPolicy) (w : Word) : Word := packWord (resultVec (unpackWord policy w))

end Sys2Proof.Machine
end

