-- ==== Sys2Proof/Machine/State.lean ====
section
/-! DEFINITION. The state of the machine: the two in-flight queues and the output ports, which are all the
spec gives it (10_state.md R27 to R30), the build parameters (00_scope.md R18), and the model's own fields:
what the environment will drive, what it has collected, and the probe of the primitives. -/

namespace Sys2Proof.Machine

/-- The encoder's inputs in one of its clock cycles (10_state.md R28). -/
structure EncIn where
  /-- `rst` at the clock edge that ends the cycle (70_reset_and_hazards.md R160). -/
  rst : Bool
  /-- `enc_valid_i`. -/
  valid : Bool
  /-- `enc_x_i`. -/
  x : F32
  /-- `enc_y_i`. -/
  y : F32
  /-- `enc_z_i`. -/
  z : F32
deriving DecidableEq, Repr

/-- The decoder's inputs in one of its clock cycles (10_state.md R29). -/
structure DecIn where
  /-- `rst` at the clock edge that ends the cycle (70_reset_and_hazards.md R160). -/
  rst : Bool
  /-- `dec_valid_i`. -/
  valid : Bool
  /-- `dec_word_i`. -/
  word : Word
deriving DecidableEq, Repr

/-- One clock cycle of one unit, as the environment drives it. A cycle of a clock that both units share is
an encoder event and then a decoder event. Log entry 2. -/
inductive Event where
  /-- A clock cycle of the encoder. -/
  | enc (i : EncIn)
  /-- A clock cycle of the decoder. -/
  | dec (i : DecIn)
  /-- A clock cycle of the decoder wired to the encoder's result port: `dec_word_i` = `enc_word_o` and
  `dec_valid_i` = `enc_valid_o` (20_memory.md R51). -/
  | decWired (rst : Bool)
deriving DecidableEq, Repr

/-- `normal_vector_encoder`. -/
structure EncUnit where
  /-- The in-flight queue, oldest entry first (10_state.md R27). -/
  queue : List (Option Vec3)
  /-- The result port in the unit's latest clock cycle: `some w` is `enc_valid_o` = 1 with w on
  `enc_word_o` (10_state.md R28). -/
  out : Option Word
  /-- MODEL'S OWN: how many clock cycles the unit has had, the numbering of 70_reset_and_hazards.md R164. -/
  cycle : Nat
deriving DecidableEq, Repr

/-- `normal_vector_decoder`. -/
structure DecUnit where
  /-- The in-flight queue, oldest entry first (10_state.md R27). -/
  queue : List (Option Word)
  /-- The result port in the unit's latest clock cycle: `some r` is `dec_valid_o` = 1 with r on the data
  outputs (10_state.md R29). -/
  out : Option DecResult
  /-- MODEL'S OWN: how many clock cycles the unit has had, the numbering of 70_reset_and_hazards.md R164. -/
  cycle : Nat
deriving DecidableEq, Repr

/-- The value of one internal primitive (30_encoding.md R71). -/
inductive PrimValue where
  /-- UNORM's `f32`. -/
  | unorm (v : F32)
  /-- Q15's `u16`. -/
  | q15 (v : BitVec 16)
  /-- Q16's `u32`. -/
  | q16 (v : BitVec 32)
  /-- SNORM's `f32`. -/
  | snorm (v : F32)
deriving DecidableEq, Repr

/-- The machine. -/
structure State where
  /-- The build parameters, constant (00_scope.md R18). Log entry 4. -/
  config : Config
  /-- The encoder unit. -/
  enc : EncUnit
  /-- The decoder unit. -/
  dec : DecUnit
  /-- MODEL'S OWN: the unit clock cycles the environment will drive, the next one first. Log entry 2. -/
  schedule : List Event
  /-- MODEL'S OWN: the encoder results the environment has collected, oldest first, each with the number
  of the cycle that presented it (70_reset_and_hazards.md R170). Log entry 9. -/
  encLog : List (Nat × Word)
  /-- MODEL'S OWN: the decoder results the environment has collected, as `encLog`. Log entry 9. -/
  decLog : List (Nat × DecResult)
  /-- MODEL'S OWN: the value of the primitive that exec last evaluated on its own. Log entry 1. -/
  probe : Option PrimValue
deriving DecidableEq, Repr

/-- No way to fault: "The hardware raises no exception, takes no trap, and has no fault state"
(60_exceptions.md R140). -/
inductive Fault where
deriving DecidableEq, Repr

/-- Why a step is refused. -/
inductive Refusal where
  /-- An instruction without a meaning in this model; raised by an arm of exec only, and no arm raises it.
  Safe: the model stops where the hardware goes on. -/
  | notModelled (mnemonic : String)
deriving DecidableEq, Repr

/-- A machine built with parameters `c`, right after a reset edge in both units (10_state.md R30): empty
queues, `valid` and `dec_derr_o` 0, data outputs unspecified. -/
def State.resetWith (c : Config) : State where
  config := c
  enc := { queue := List.replicate c.encLatency none, out := none, cycle := 0 }
  dec := { queue := List.replicate c.decLatency none, out := none, cycle := 0 }
  schedule := []
  encLog := []
  decLog := []
  probe := none

/-- This hardware right after reset (10_state.md R30, 00_scope.md R7). -/
def State.reset : State := State.resetWith Config.normalCodec

end Sys2Proof.Machine
end

