-- ==== Sys2Proof/Machine/Ops.lean ====
section
/-! DEFINITION. The shared operations: the output ports as the environment reads them, one clock cycle of
a unit, and the events of the schedule. The hardware takes no exception and returns from none
(60_exceptions.md R140, R146, R147), has no registers (10_state.md R20) and no memory (20_memory.md R41), so
there is no operation for any of them. -/

namespace Sys2Proof.Machine

/-! ### Output ports (10_state.md R28, R29, R33) -/

/-- `enc_valid_o`. -/
def State.encValidO (s : State) : Bool := s.enc.out.isSome

/-- `enc_word_o`; a free value while `enc_valid_o` is 0 (10_state.md R33). -/
def State.encWordO (s : State) : Word := s.enc.out.getD (Config.unspecified .encWord s.enc.cycle)

/-- `dec_valid_o`. -/
def State.decValidO (s : State) : Bool := s.dec.out.isSome

/-- `dec_x_o`; a free value while `dec_valid_o` is 0 (10_state.md R33). -/
def State.decXO (s : State) : F32 := (s.dec.out.map (·.x)).getD (Config.unspecified .decX s.dec.cycle)

/-- `dec_y_o`; a free value while `dec_valid_o` is 0 (10_state.md R33). -/
def State.decYO (s : State) : F32 := (s.dec.out.map (·.y)).getD (Config.unspecified .decY s.dec.cycle)

/-- `dec_z_o`; a free value while `dec_valid_o` is 0 (10_state.md R33). -/
def State.decZO (s : State) : F32 := (s.dec.out.map (·.z)).getD (Config.unspecified .decZ s.dec.cycle)

/-- `dec_derr_o`: 0 in every cycle in which `dec_valid_o` is 0 (10_state.md R23). -/
def State.decDerrO (s : State) : Bool := (s.dec.out.map (·.derr)).getD false

/-! ### One clock cycle of a unit (10_state.md R21, R27; 70_reset_and_hazards.md R160 to R164, R169) -/

/-- The in-flight queue moves on by one clock: what enters goes to the back, the front comes out. A queue
of depth 0 passes what enters straight through (10_state.md R27). -/
def shiftQueue {α : Type} (queue : List (Option α)) (entering : Option α) :
    Option α × List (Option α) :=
  match queue with
  | [] => (entering, [])
  | front :: rest => (front, rest ++ [entering])

/-- One clock cycle of a unit of latency `latency`: the operand whose result is presented in it, and the
queue after the edge that ends it. At a reset edge an offered operand begins nothing
(70_reset_and_hazards.md R169) and the queue is emptied (R161, R162); a result due in that very cycle was
presented by the edge before (log entry 6). -/
def clockQueue {α : Type} (latency : Nat) (rst : Bool) (offered : Option α)
    (queue : List (Option α)) : Option α × List (Option α) :=
  if rst then ((shiftQueue queue none).1, List.replicate latency none) else shiftQueue queue offered

/-- The operand the encoder's inputs offer: read only when `enc_valid_i` is 1 (10_state.md R32). -/
def EncIn.offered (i : EncIn) : Option Vec3 := if i.valid then some ⟨i.x, i.y, i.z⟩ else none

/-- The operand the decoder's inputs offer: read only when `dec_valid_i` is 1 (10_state.md R32). -/
def DecIn.offered (i : DecIn) : Option Word := if i.valid then some i.word else none

/-- One clock cycle of the encoder. The environment takes the result in the cycle that presents it
(60_exceptions.md R158). -/
def State.encCycle (s : State) (i : EncIn) : State :=
  let shifted := clockQueue s.config.encLatency i.rst i.offered s.enc.queue
  let result := shifted.1.map packWord
  { s with
    enc := { queue := shifted.2, out := result, cycle := s.enc.cycle + 1 }
    encLog := s.encLog ++ (result.map fun w => (s.enc.cycle, w)).toList }

/-- One clock cycle of the decoder. The environment takes the result in the cycle that presents it
(60_exceptions.md R158). -/
def State.decCycle (s : State) (i : DecIn) : State :=
  let shifted := clockQueue s.config.decLatency i.rst i.offered s.dec.queue
  let result := shifted.1.map (unpackWord s.config.radicandPolicy)
  { s with
    dec := { queue := shifted.2, out := result, cycle := s.dec.cycle + 1 }
    decLog := s.decLog ++ (result.map fun r => (s.dec.cycle, r)).toList }

/-- The value of an internal primitive, seen from outside the unit only here. Log entry 1. -/
def State.withProbe (s : State) (v : PrimValue) : State := { s with probe := some v }

/-! ### The schedule -/

/-- Encoder inputs that offer nothing. -/
def EncIn.idle : EncIn := { rst := false, valid := false, x := 0, y := 0, z := 0 }

/-- Decoder inputs that offer nothing. -/
def DecIn.idle : DecIn := { rst := false, valid := false, word := 0 }

/-- Encoder inputs that offer one operand outside reset: a PACK (00_scope.md R13). -/
def EncIn.offer (x y z : F32) : EncIn := { rst := false, valid := true, x := x, y := y, z := z }

/-- Decoder inputs that offer one operand outside reset: an UNPACK (00_scope.md R13). -/
def DecIn.offer (w : Word) : DecIn := { rst := false, valid := true, word := w }

/-- The decoder's inputs when the environment has wired it to the encoder, the qualifier with the data
(20_memory.md R51). -/
def State.wiredIn (s : State) (rst : Bool) : DecIn :=
  { rst := rst, valid := s.encValidO, word := s.encWordO }

/-- The event that presents an operand at its port. -/
def presentEvent : Operand → Event
  | .atEncoder x y z => .enc (.offer x y z)
  | .atDecoder w => .dec (.offer w)

/-- The operand that begins a transaction in an encoder cycle: `valid` is 1 and the edge is no reset edge
(10_state.md R21, 70_reset_and_hazards.md R169). -/
def EncIn.begins (i : EncIn) : Option Operand :=
  if i.valid && !i.rst then some (.atEncoder i.x i.y i.z) else none

/-- The operand that begins a transaction in a decoder cycle, as `EncIn.begins`. -/
def DecIn.begins (i : DecIn) : Option Operand :=
  if i.valid && !i.rst then some (.atDecoder i.word) else none

/-- The operand that begins a transaction in the event, if one does. -/
def State.presented (s : State) : Event → Option Operand
  | .enc i => i.begins
  | .dec i => i.begins
  | .decWired rst => (s.wiredIn rst).begins

/-- The unit's clock cycle of an event. -/
def State.clock (s : State) : Event → State
  | .enc i => s.encCycle i
  | .dec i => s.decCycle i
  | .decWired rst => s.decCycle (s.wiredIn rst)

/-- One clock cycle of each unit in which nothing is offered. Log entry 3. -/
def State.idleCycle (s : State) : State := (s.encCycle .idle).decCycle .idle

end Sys2Proof.Machine
end

