-- ==== Sys2Proof/Machine/Decoder.lean ====
section
/-! DEFINITION. The operation of `normal_vector_decoder` (42_decoder.md). -/

namespace Sys2Proof.Machine

/-- UNPACK (42_decoder.md R120): the decoder clock cycle in which w is presented outside reset. Its vector
and flag are presented `DEC_LATENCY` cycles later, in this same cycle when that is 0. It never refuses
(R127). -/
def execUnpack (w : Word) (s : State) : Host.Outcome State Fault Refusal :=
  .next (s.decCycle (.offer w))

end Sys2Proof.Machine
end

