-- ==== Sys2Proof/Machine/Encoder.lean ====
section
/-! DEFINITION. The operation of `normal_vector_encoder` (41_encoder.md). -/

namespace Sys2Proof.Machine

/-- PACK (41_encoder.md R110): the encoder clock cycle in which (x, y, z) is presented outside reset. Its
word is presented `ENC_LATENCY` cycles later, in this same cycle when that is 0. It never refuses (R113). -/
def execPack (x y z : F32) (s : State) : Host.Outcome State Fault Refusal :=
  .next (s.encCycle (.offer x y z))

end Sys2Proof.Machine
end

