-- ==== Sys2Proof/Machine/Primitives.lean ====
section
/-! DEFINITION. The four rows of the table that no port invokes (00_scope.md R2): the meaning of each is
its value, which the model shows in `probe` and which takes no clock cycle. No event of the schedule
leads to one. Log entry 1. -/

namespace Sys2Proof.Machine

/-- UNORM (40_primitives.md R95). -/
def execUnorm (x : F32) (s : State) : Host.Outcome State Fault Refusal :=
  .next (s.withProbe (.unorm (unorm x)))

/-- Q15 (40_primitives.md R96). -/
def execQ15 (f : F32) (s : State) : Host.Outcome State Fault Refusal :=
  .next (s.withProbe (.q15 (q15 f)))

/-- Q16 (40_primitives.md R97). -/
def execQ16 (f : F32) (s : State) : Host.Outcome State Fault Refusal :=
  .next (s.withProbe (.q16 (q16 f)))

/-- SNORM (40_primitives.md R98). -/
def execSnorm (q : F32) (s : State) : Host.Outcome State Fault Refusal :=
  .next (s.withProbe (.snorm (snorm q)))

end Sys2Proof.Machine
end

