-- ==== Sys2Proof/Machine/Dispatch.lean ====
section
/-! DEFINITION. One arm for each row of spec/opcode_table.json. -/

namespace Sys2Proof.Machine

def exec (i : Instr) (s : State) : Host.Outcome State Fault Refusal :=
  match i with
  | .pack x y z => Sys2Proof.Machine.execPack x y z s
  | .unpack w => Sys2Proof.Machine.execUnpack w s
  | .unorm x => Sys2Proof.Machine.execUnorm x s
  | .q15 f => Sys2Proof.Machine.execQ15 f s
  | .q16 f => Sys2Proof.Machine.execQ16 f s
  | .snorm q => Sys2Proof.Machine.execSnorm q s

end Sys2Proof.Machine
end

