-- ==== Sys2Proof/Machine/Fetch.lean ====
section
/-! DEFINITION. Fetching: the hardware fetches nothing (10_state.md R22); what a step runs is the operand
that the environment presents in the schedule's next event. -/

namespace Sys2Proof.Machine

/-- The next event of the schedule and the state without it. -/
def State.nextEvent (s : State) : Option (Event × State) :=
  match s.schedule with
  | [] => none
  | e :: rest => some (e, { s with schedule := rest })

/-- The operation that an event of the schedule begins, if it begins one: the decoder applied to the
operand presented (30_encoding.md R65). -/
def State.begun (s : State) (e : Event) : Option Instr := (s.presented e).map decodeOperand

/-- The schedule with the event in front that presents an instruction of the table. -/
def State.presentNext (s : State) (o : Operand) : State :=
  { s with schedule := presentEvent o :: s.schedule }

/-- The operand that a row's bits are: the decoder's reading of them (30_encoding.md R61, R65). -/
def tableOperand (nbits w : Nat) : Option Operand :=
  (tablePort nbits).bind fun p => (operandOfBytes p (tableBytes (nbits / 8) w)).toOption

/-- The body of `State.withFetchWord`. Bits of a width no port has cannot be presented: the state is as it
was. Log entry 11. -/
def State.presentTableWord (s : State) (nbits w : Nat) : State :=
  match tableOperand nbits w with
  | some o => s.presentNext o
  | none => s

end Sys2Proof.Machine
end

