-- ==== Sys2Proof/Machine/Step.lean ====
section
/-! DEFINITION. One step: the next clock cycle of one unit, as the environment's schedule drives it. "every
step of this hardware is a next state" (60_exceptions.md R140). -/

namespace Sys2Proof.Machine

/-- The state with the bits of a table row presented in the very next step. Log entries 2 and 11. -/
def State.withFetchWord (s : State) (nbits w : Nat) : State := s.presentTableWord nbits w

/-- One step. An event that begins a transaction runs the operation decoded from the operand presented;
every other event is a clock cycle of its unit; with nothing scheduled both units idle. -/
def step (s : State) : Host.Outcome State Fault Refusal :=
  match s.nextEvent with
  | none => .next s.idleCycle
  | some (e, s') =>
    match s'.begun e with
    | some i => exec i s'
    | none => .next (s'.clock e)

end Sys2Proof.Machine
end

