-- ==== Sys2Proof/Machine/Acceptance.lean ====
section
/-! DEFINITION. Predicates the spec states over operands and results: in domain (00_scope.md R14), the error
conditions of NC (60_exceptions.md R141 to R143), the acceptance predicate (42_decoder.md R131), and the
transaction notation (30_encoding.md R68). None of them is hardware. -/

namespace Sys2Proof.Machine

/-- Not a NaN and between two data, ends included, in the order of their values. -/
def inClosed (lo hi a : F32) : Bool :=
  !isNaN a && decide (signedUnits lo ≤ signedUnits a) && decide (signedUnits a ≤ signedUnits hi)

/-- A PACK component in domain: not a NaN and in [−1, 1] (00_scope.md R14). -/
def componentInDomain (a : F32) : Bool := inClosed fNegOne fOne a

/-- A PACK operand in domain: x and y are; z may be anything (00_scope.md R14). -/
def packInDomain (v : Vec3) : Bool := componentInDomain v.x && componentInDomain v.y

/-- A quantizer input in domain: not a NaN and in [0, 1] (00_scope.md R14). -/
def quantizerInDomain (f : F32) : Bool := inClosed fZero fOne f

/-- An UNPACK operand in the unit disk: its radicand is not negative (00_scope.md R14). -/
def inUnitDisk (w : Word) : Bool :=
  !domainErrorFlag (radicand (decodeX (fieldX w)) (decodeY (fieldY w)))

/-- The two entries of NC's error taxonomy (60_exceptions.md R141). The labels are stored nowhere. -/
inductive ErrorLabel where
  /-- `E_PRECOND`, never detected (60_exceptions.md R142). -/
  | precond
  /-- `E_DOMAIN`, shown by `dec_derr_o` (60_exceptions.md R143). -/
  | domain
deriving DecidableEq, Repr

/-- The condition an operation detects on its operand, if any: PACK none, UNPACK `E_DOMAIN` outside the unit
disk (60_exceptions.md R142, R143, R145). -/
def detectedError : Operand → Option ErrorLabel
  | .atEncoder _ _ _ => none
  | .atDecoder w => if inUnitDisk w then none else some .domain

/-- `approx_eq` (42_decoder.md R131): neither is a NaN and |a − b| ≤ 5/1000 over the reals; an infinity is no
real, so it is near nothing (log entry 14). -/
def approxEq (a b : F32) : Bool :=
  isFinite a && isFinite b &&
    decide (Config.epsDen * (signedUnits a - signedUnits b).natAbs ≤ Config.epsNum * 2 ^ 149)

/-- `approx_eq_vec` (42_decoder.md R131). -/
def approxEqVec (u v : Vec3) : Bool := approxEq u.x v.x && approxEq u.y v.y && approxEq u.z v.z

/-- A line of the transaction notation: an operand and the result it is expected to give
(30_encoding.md R68). -/
inductive Transaction where
  | pack (v : Vec3) (w : Word)
  | unpack (w : Word) (r : DecResult)
deriving DecidableEq, Repr

/-- Whether the hardware gives the expected result. -/
def Transaction.holds (policy : RadicandPolicy) : Transaction → Bool
  | .pack v w => packWord v == w
  | .unpack w r => unpackWord policy w == r

/-- The operand of a line: its only encoding (30_encoding.md R68). -/
def Transaction.operand : Transaction → Operand
  | .pack v _ => .atEncoder v.x v.y v.z
  | .unpack w _ => .atDecoder w

/-- One upper-case hexadecimal digit. -/
def hexDigit (n : Nat) : Char := if n < 10 then Char.ofNat (48 + n) else Char.ofNat (55 + n)

/-- `0x` and exactly 8 hexadecimal digits (30_encoding.md R68). -/
def hexWord (w : Word) : String :=
  "0x" ++ String.ofList ([7, 6, 5, 4, 3, 2, 1, 0].map fun k => hexDigit (w.toNat / 16 ^ k % 16))

/-- The text of a line (30_encoding.md R68). -/
def Transaction.text : Transaction → String
  | .pack v w => "PACK " ++ hexWord v.x ++ ", " ++ hexWord v.y ++ ", " ++ hexWord v.z ++ " -> " ++ hexWord w
  | .unpack w r => "UNPACK " ++ hexWord w ++ " -> " ++ hexWord r.x ++ ", " ++ hexWord r.y ++ ", " ++
      hexWord r.z ++ ", " ++ (if r.derr then "1" else "0")

end Sys2Proof.Machine
end

