-- ==== Sys2Proof/Safety.lean ====
section
/-! DEFINITION. What the statements speak of: the exact value of a datum and correct rounding
(40_primitives.md R80, R81), the depth the queues must have (10_state.md R27), and the inputs a schedule
gives each unit. A run is safe when no step faults or refuses and the queues keep their depth. -/

namespace Sys2Proof.Machine

/-! ### Values -/

/-- The value of a finite datum as a rational number (40_primitives.md R80). -/
def ratValue (a : F32) : ℚ := (signedUnits a : ℚ) / 2 ^ 149

/-- The value of a datum that is no NaN, with −∞ below and +∞ above every rational (40_primitives.md R87). -/
def extendedValue (a : F32) : WithBot (WithTop ℚ) :=
  if isInf a then (if signBit a then ⊥ else ((⊤ : WithTop ℚ) : WithBot (WithTop ℚ)))
  else ((ratValue a : WithTop ℚ) : WithBot (WithTop ℚ))

/-- `r` is the exact magnitude `x`, in units of 2^−149, with sign `s`, rounded to nearest with ties to even
(40_primitives.md R81): from 2^128 − 2^103 up the infinity of the sign, below that the nearest finite datum,
and of two equally near ones the one whose fraction bit 0 is 0. -/
def RoundsTo (x : ℝ) (s : Bool) (r : F32) : Prop :=
  isNaN r = false ∧ signBit r = s ∧
    (((2 : ℝ) ^ 128 - 2 ^ 103) * 2 ^ 149 ≤ x → isInf r = true) ∧
    (x < ((2 : ℝ) ^ 128 - 2 ^ 103) * 2 ^ 149 → isFinite r = true ∧
      ∀ v : F32, isFinite v = true →
        |x - (units r : ℝ)| ≤ |x - (units v : ℝ)| ∧
        (|x - (units r : ℝ)| = |x - (units v : ℝ)| → units v ≠ units r → r.getLsbD 0 = false))

/-! ### States -/

/-- Each in-flight queue is as deep as its unit's latency (10_state.md R27). -/
abbrev State.depthsHold (s : State) : Prop :=
  s.enc.queue.length = s.config.encLatency ∧ s.dec.queue.length = s.config.decLatency

/-- No transaction is in flight in the encoder (70_reset_and_hazards.md R170). -/
abbrev State.encEmpty (s : State) : Prop := s.enc.queue = List.replicate s.config.encLatency none

/-- No transaction is in flight in the decoder (70_reset_and_hazards.md R170). -/
abbrev State.decEmpty (s : State) : Prop := s.dec.queue = List.replicate s.config.decLatency none

/-- A run of `n` steps ended in `t`: no step faulted or refused. -/
def RunsTo (n : Nat) (s t : State) : Prop := Host.Core.run Sys2Proof.core n s = .next t

/-! ### Schedules -/

/-- The encoder's inputs in the events of a schedule. -/
def encInputs : List Event → List EncIn
  | [] => []
  | .enc i :: es => i :: encInputs es
  | .dec _ :: es => encInputs es
  | .decWired _ :: es => encInputs es

/-- The decoder's inputs in the events of a schedule that has no wired event. -/
def decInputs : List Event → List DecIn
  | [] => []
  | .enc _ :: es => decInputs es
  | .dec i :: es => i :: decInputs es
  | .decWired _ :: es => decInputs es

/-- The decoder's inputs in an event that is one of its clock cycles, wired to the encoder or not
(10_state.md R29, 20_memory.md R51). -/
def State.decCycleInputs (s : State) : Event → Option DecIn
  | .enc _ => none
  | .dec i => some i
  | .decWired rst => some (s.wiredIn rst)

/-- The event is a clock cycle of the decoder. -/
def Event.isDecoder : Event → Bool
  | .enc _ => false
  | .dec _ => true
  | .decWired _ => true

/-- No decoder cycle among the events, wired or not, begins a transaction when they are clocked in order. -/
def decoderBeginsNothing : State → List Event → Bool
  | _, [] => true
  | s, e :: es =>
    ((s.decCycleInputs e).all fun i => i.begins.isNone) && decoderBeginsNothing (s.clock e) es

/-- No event of the schedule is a wired decoder cycle. -/
def unwired : List Event → Bool
  | [] => true
  | .enc _ :: es => unwired es
  | .dec _ :: es => unwired es
  | .decWired _ :: _ => false

/-- The cycles of a clock that both units share, the decoder wired to the encoder (20_memory.md R51) and
out of reset. -/
def wiredCycles : List EncIn → List Event
  | [] => []
  | i :: is => .enc i :: .decWired false :: wiredCycles is

/-- The results that a sequence of encoder inputs, the first one in cycle `t`, must give: the operand of a
cycle gives its word `latency` cycles later (70_reset_and_hazards.md R164). -/
def encResultsDue (latency : Nat) : (t : Nat) → List EncIn → List (Nat × Word)
  | _, [] => []
  | t, i :: is =>
    (i.offered.map fun v => (t + latency, packWord v)).toList ++ encResultsDue latency (t + 1) is

/-- As `encResultsDue`, for the decoder. -/
def decResultsDue (policy : RadicandPolicy) (latency : Nat) : (t : Nat) → List DecIn → List (Nat × DecResult)
  | _, [] => []
  | t, i :: is =>
    (i.offered.map fun w => (t + latency, unpackWord policy w)).toList ++
      decResultsDue policy latency (t + 1) is

/-- The results still due from an encoder queue, the front one in cycle `t` and each further one a cycle later,
if no reset edge cancels them (70_reset_and_hazards.md R162, R164). -/
def encInFlightDue : (t : Nat) → List (Option Vec3) → List (Nat × Word)
  | _, [] => []
  | t, v :: queue => (v.map fun v => (t, packWord v)).toList ++ encInFlightDue (t + 1) queue

/-- As `encInFlightDue`, for the decoder. -/
def decInFlightDue (policy : RadicandPolicy) : (t : Nat) → List (Option Word) → List (Nat × DecResult)
  | _, [] => []
  | t, w :: queue => (w.map fun w => (t, unpackWord policy w)).toList ++ decInFlightDue policy (t + 1) queue

end Sys2Proof.Machine
end

