-- ==== Sys2Proof/Certificates/Slice0/Obligations.lean ====
section
/-! DEFINITION. The statements for the provers. Each docstring names the rules of spec/ it formalises. -/

open Sys2Proof Sys2Proof.Machine

/-! ### Encoding -/

/-- Every instruction that a port can be presented with is read back from its bytes (30_encoding.md R65). That the
bytes of a PACK operand are x, y and z in this order is the model's choice, log entry 10. -/
def Obligations.DecodeReadsBackEveryEncoding : Prop :=
  ∀ i : Instr, i.wellFormed = true →
    ∃ p bytes, encode i = some (p, bytes) ∧ decode p bytes = .ok i

/-- Bytes that decode are the encoding of what they decode to, so each operation has one encoding, and no
bytes at any port are an internal primitive (30_encoding.md R65, R71). The bytes are the model's choice, log
entry 10. -/
def Obligations.EncodeReadsBackEveryDecoding : Prop :=
  ∀ p bytes i, decode p bytes = .ok i → encode i = some (p, bytes) ∧ i.wellFormed = true

/-- No pattern of operand bits is illegal: every one of the 2^96 is a PACK operand and every one of the 2^32 an
UNPACK operand (30_encoding.md R66). The rest is the model's choice and no rule: that a width of 96 bits stands for
the encoder's port with x in 95:64, y in 63:32, z in 31:0, and one of 32 bits for the decoder's (log entry 11); that
12 bytes are x, y, z in order, and that any other number of bytes at a port is rejected by name (log entry 10). -/
def Obligations.EveryOperandPatternIsLegal : Prop :=
  (∀ w : BitVec 96, decodeTableWord 96 w.toNat =
      some (.pack (w.extractLsb' 64 32) (w.extractLsb' 32 32) (w.extractLsb' 0 32))) ∧
  (∀ w : BitVec 32, decodeTableWord 32 w.toNat = some (.unpack w)) ∧
  (∀ bytes : List Byte, bytes.length = 12 → ∃ x y z, decode .encoder bytes = .ok (.pack x y z)) ∧
  (∀ bytes : List Byte, bytes.length = 4 → ∃ w, decode .decoder bytes = .ok (.unpack w)) ∧
  (∀ bytes : List Byte, bytes.length ≠ 12 →
      decode .encoder bytes = .error (.byteCount .encoder bytes.length)) ∧
  (∀ bytes : List Byte, bytes.length ≠ 4 →
      decode .decoder bytes = .error (.byteCount .decoder bytes.length))

/-- Written-out words decode to the operations they stand for: V-PK9's operand at the encoder, V-UP9's word at
the decoder (95_test_vectors.md). That a width stands for a port, and that a width of 8 bits, which is no port's,
decodes to nothing, are the model's choice, log entry 11. -/
def Obligations.SampleWordsDecode : Prop :=
  decodeTableWord 96 0x3F19999A00000000BF4CCCCD = some (.pack 0x3F19999A 0x00000000 0xBF4CCCCD) ∧
  decodeTableWord 32 0xCCCC8001 = some (.unpack 0xCCCC8001) ∧
  decode .decoder [0xCC, 0xCC, 0x80, 0x01] = .ok (.unpack 0xCCCC8001) ∧
  decodeTableWord 8 0 = none

/-- The shift and mask forms of the three fields are the slices (30_encoding.md R63). -/
def Obligations.FieldExtractionFormsAgree : Prop :=
  ∀ w : Word,
    fieldX w = w.extractLsb' 16 16 ∧ fieldY w = w.extractLsb' 1 15 ∧ fieldS w = w.getLsbD 0 ∧
    (fieldX w).toNat = (w >>> 16).toNat ∧
    (fieldY w).toNat = ((w &&& 0xFFFF) >>> 1).toNat ∧
    (fieldS w).toNat = (w &&& 1).toNat

/-- Composition keeps ux[15:0], uy[14:0] and s in their fields, drops the other bits, so the Q15 mask cannot be
seen in the word, and drops nothing in domain; taking a word apart and composing it gives it back
(41_encoder.md R112). -/
def Obligations.CompositionTruncatesToFields : Prop :=
  (∀ (ux : BitVec 32) (uy : BitVec 16) (s : Bool),
    (composeWord ux uy s).extractLsb' 16 16 = ux.extractLsb' 0 16 ∧
    (composeWord ux uy s).extractLsb' 1 15 = uy.extractLsb' 0 15 ∧
    (composeWord ux uy s).getLsbD 0 = s) ∧
  (∀ (ux v : BitVec 32) (s : Bool),
    composeWord ux ((v &&& 0xFFFF).extractLsb' 0 16) s = composeWord ux (v.extractLsb' 0 16) s) ∧
  (∀ w : Word, composeWord ((fieldX w).setWidth 32) ((fieldY w).setWidth 16) (fieldS w) = w) ∧
  (∀ x : F32, componentInDomain x = true → (q16 (unorm x)).extractLsb' 16 16 = 0) ∧
  (∀ y : F32, componentInDomain y = true → (q15 (unorm y)).getLsbD 15 = false)

/-- A serialised word has the x code in bytes 0 and 1, high byte first, the high 8 bits of the y code in byte 2,
and its low 7 bits followed by the sign flag in byte 3 (20_memory.md R40). -/
def Obligations.SerialisedWordIsBigEndian : Prop :=
  ∀ w : Word, ∃ b0 b1 b2 b3 : Byte, bytesOfWord w = [b0, b1, b2, b3] ∧
    (fieldX w).toNat = 256 * b0.toNat + b1.toNat ∧
    (fieldY w).toNat = 128 * b2.toNat + b3.toNat / 2 ∧
    (fieldS w).toNat = b3.toNat % 2 ∧
    wordOfBytes b0 b1 b2 b3 = w

/-! ### Arithmetic -/

/-- The shared rounding of an exact magnitude is round to nearest, ties to even (40_primitives.md R81). -/
def Obligations.RoundingIsNearestTiesToEven : Prop :=
  ∀ (s : Bool) (num den : Nat), 0 < den → RoundsTo ((num : ℝ) / den) s (roundF32 s num den)

/-- `fadd` (40_primitives.md R82): the exact sum rounded once, and every special case. -/
def Obligations.SumIsExactSumRoundedOnce : Prop :=
  ∀ a b : F32,
    (isNaN a = true ∨ isNaN b = true → isNaN (fadd a b) = true) ∧
    (isInf a = true → isInf b = true → signBit a ≠ signBit b → isNaN (fadd a b) = true) ∧
    (isInf a = true → isInf b = true → signBit a = signBit b → fadd a b = a) ∧
    (isInf a = true → isFinite b = true → fadd a b = a) ∧
    (isFinite a = true → isInf b = true → fadd a b = b) ∧
    (isFinite a = true → isFinite b = true → signedUnits a + signedUnits b = 0 →
      fadd a b = if signBit a && signBit b then fNegZero else fZero) ∧
    (isFinite a = true → isFinite b = true → signedUnits a + signedUnits b ≠ 0 →
      RoundsTo |((signedUnits a + signedUnits b : Int) : ℝ)|
        (decide (signedUnits a + signedUnits b < 0)) (fadd a b))

/-- `fsub` (40_primitives.md R83): `fadd` with the sign bit of b flipped, the exact difference rounded once, and
x − x is +0.0. -/
def Obligations.DifferenceIsSumWithFlippedSign : Prop :=
  (∀ b : F32, signBit (fneg b) = !signBit b ∧ expField (fneg b) = expField b ∧
    fracField (fneg b) = fracField b) ∧
  (∀ a b : F32, fsub a b = fadd a (fneg b)) ∧
  (∀ a b : F32, isFinite a = true → isFinite b = true → signedUnits a ≠ signedUnits b →
    RoundsTo |((signedUnits a - signedUnits b : Int) : ℝ)|
      (decide (signedUnits a < signedUnits b)) (fsub a b)) ∧
  (∀ x : F32, isFinite x = true → fsub x x = fZero)

/-- `fmul` (40_primitives.md R84): the exact product rounded once, the sign is the exclusive-or, and a product by
0.5, 2.0, 1.0 or −1.0 whose exact value is zero or in the normal range is exact (log entry 15). -/
def Obligations.ProductIsExactProductRoundedOnce : Prop :=
  (∀ a b : F32,
    (isNaN a = true ∨ isNaN b = true → isNaN (fmul a b) = true) ∧
    (isZero a = true ∧ isInf b = true ∨ isInf a = true ∧ isZero b = true → isNaN (fmul a b) = true) ∧
    (isInf a = true → isNaN b = false → isZero b = false → isInf (fmul a b) = true) ∧
    (isInf b = true → isNaN a = false → isZero a = false → isInf (fmul a b) = true) ∧
    (isNaN (fmul a b) = false → signBit (fmul a b) = (signBit a != signBit b)) ∧
    (isFinite a = true → isFinite b = true →
      RoundsTo ((units a : ℝ) * units b / 2 ^ 149) (signBit a != signBit b) (fmul a b))) ∧
  (∀ a c : F32, isFinite a = true → c ∈ [fHalf, fTwo, fOne, fNegOne] →
    units a = 0 ∨ 2 ^ 23 * 2 ^ 149 ≤ units a * units c → isFinite (fmul a c) = true →
    units (fmul a c) * 2 ^ 149 = units a * units c)

/-- `fdiv` (40_primitives.md R85): the exact quotient rounded once; and the quotients the block forms are of a
finite integer from 0 to 65535 by 65535.0 or 32767.0, never a NaN or an infinity. -/
def Obligations.QuotientIsExactQuotientRoundedOnce : Prop :=
  (∀ a b : F32, isFinite a = true → isFinite b = true → isZero b = false →
    RoundsTo ((units a : ℝ) * 2 ^ 149 / units b) (signBit a != signBit b) (fdiv a b)) ∧
  (∀ n : BitVec 16, isFinite (u2f n) = true ∧ signBit (u2f n) = false ∧
    units (u2f n) ≤ 65535 * 2 ^ 149 ∧
    isFinite (fdiv (u2f n) fKX) = true ∧ isFinite (fdiv (u2f n) fKY) = true) ∧
  units fKX = 65535 * 2 ^ 149 ∧ units fKY = 32767 * 2 ^ 149

/-- `fsqrt` (40_primitives.md R86): the exact root rounded once, and every special case. -/
def Obligations.RootIsExactRootRoundedOnce : Prop :=
  (∀ a : F32, isFinite a = true → signBit a = false → isZero a = false →
    RoundsTo (Real.sqrt ((units a : ℝ) * 2 ^ 149)) false (fsqrt a)) ∧
  fsqrt (infinity false) = infinity false ∧
  fsqrt fZero = fZero ∧ fsqrt fNegZero = fNegZero ∧
  (∀ a : F32, isNaN a = false → isZero a = false → signBit a = true → isNaN (fsqrt a) = true) ∧
  (∀ a : F32, isNaN a = true → isNaN (fsqrt a) = true)

/-- `flt` (40_primitives.md R87): the order of the values, −∞ least and +∞ greatest, false for any NaN; its
named cases follow. -/
def Obligations.LessThanIsOrderOfValues : Prop :=
  (∀ a b : F32, flt a b = true ↔
    isNaN a = false ∧ isNaN b = false ∧ extendedValue a < extendedValue b) ∧
  flt fNegZero fZero = false ∧
  (∀ a : F32, isNaN a = true → flt a fZero = false) ∧
  flt (infinity true) fZero = true ∧
  (∀ a : F32, isSubnormal a = true → signBit a = true → flt a fZero = true)

/-- `u2f` (40_primitives.md R88) never rounds. -/
def Obligations.IntegerToFloatIsExact : Prop :=
  ∀ n : BitVec 16, isFinite (u2f n) = true ∧ ratValue (u2f n) = n.toNat

/-- `rnd_away` (40_primitives.md R93): the sign of r and the magnitude ⌊|r| + 1/2⌋, exactly; r itself from 2^23
up; infinities and NaNs; and the examples of the rule. -/
def Obligations.IntegerRoundingIsHalfAwayFromZero : Prop :=
  (∀ r : F32, isFinite r = true →
    isFinite (rndAway r) = true ∧ signBit (rndAway r) = signBit r ∧
    |ratValue (rndAway r)| = (⌊|ratValue r| + 1 / 2⌋ : ℤ)) ∧
  (∀ r : F32, isFinite r = true → 2 ^ 23 ≤ |ratValue r| → rndAway r = r) ∧
  (∀ r : F32, isInf r = true → rndAway r = r) ∧
  (∀ r : F32, isNaN r = true → isNaN (rndAway r) = true) ∧
  rndAway 0x3F000000 = 0x3F800000 ∧ rndAway 0x3FC00000 = 0x40000000 ∧
  rndAway 0x40200000 = 0x40400000 ∧ rndAway 0x3EFFFFFF = 0x00000000 ∧
  rndAway 0xBF000000 = 0xBF800000 ∧ rndAway 0xBE800000 = 0x80000000 ∧
  rndAway 0x46FFFF00 = 0x47000000 ∧ rndAway 0x477FFE80 = 0x477FFF00

/-- `f2u_sat` (40_primitives.md R94) on what `rnd_away` gives: NaN and everything not above 0 give 0, everything
from 2^32 up gives 0xFFFFFFFF, every other integer gives itself; for a quantizer input in domain the integer is
from 0 to 65535 and the conversion exact. -/
def Obligations.IntegerConversionSaturates : Prop :=
  (∀ a : F32,
    (isNaN a = true → f2uSat (rndAway a) = 0) ∧
    (isNaN a = false → signedUnits (rndAway a) ≤ 0 → f2uSat (rndAway a) = 0) ∧
    (isNaN a = false → 2 ^ 32 * 2 ^ 149 ≤ signedUnits (rndAway a) → f2uSat (rndAway a) = 0xFFFFFFFF) ∧
    (isNaN a = false → 0 < signedUnits (rndAway a) → signedUnits (rndAway a) < 2 ^ 32 * 2 ^ 149 →
      ((f2uSat (rndAway a)).toNat : ℚ) = ratValue (rndAway a) ∧
      1 ≤ (f2uSat (rndAway a)).toNat ∧ (f2uSat (rndAway a)).toNat ≤ 4294967040)) ∧
  (∀ (f k : F32), quantizerInDomain f = true → k = fKX ∨ k = fKY →
    0 ≤ ratValue (rndAway (fmul f k)) ∧ ratValue (rndAway (fmul f k)) ≤ 65535 ∧
    ((f2uSat (rndAway (fmul f k))).toNat : ℚ) = ratValue (rndAway (fmul f k)))

/-! ### The mapping primitives -/

/-- exec of each internal primitive shows its value in the probe and changes nothing else (40_primitives.md R95
to R98). That a primitive shows its value at all is the model's choice, log entry 1. -/
def Obligations.PrimitivesAlwaysComplete : Prop :=
  ∀ (s : State) (a : F32),
    exec (.unorm a) s = .next { s with probe := some (.unorm (fmul (fadd a 0x3F800000) 0x3F000000)) } ∧
    exec (.q15 a) s = .next { s with probe := some (.q15
      ((f2uSat (rndAway (fmul a 0x46FFFE00)) &&& 0x0000FFFF).extractLsb' 0 16)) } ∧
    exec (.q16 a) s = .next { s with probe := some (.q16 (f2uSat (rndAway (fmul a 0x477FFF00)))) } ∧
    exec (.snorm a) s = .next { s with probe := some (.snorm (fsub (fmul a 0x40000000) 0x3F800000)) }

/-- NC's ten identities of the primitives, and both zeros and the ends of the ranges (40_primitives.md R95 to
R98). -/
def Obligations.PrimitivesMeetCanonicalPoints : Prop :=
  unorm fNegOne = fZero ∧ unorm fZero = fHalf ∧ unorm fOne = fOne ∧ unorm fNegZero = fHalf ∧
  q16 fZero = 0 ∧ q16 fOne = 65535 ∧ q15 fZero = 0 ∧ q15 fOne = 32767 ∧
  q16 fHalf = 0x8000 ∧ q15 fHalf = 0x4000 ∧ q16 0x3F7FFF80 = 65535 ∧
  snorm fZero = fNegOne ∧ snorm fHalf = fZero ∧ snorm fOne = fOne

/-- UNORM of every datum below 2^−25 in magnitude, both zeros and every subnormal among them, is exactly 0.5
(40_primitives.md R95). -/
def Obligations.TinyInputsNormaliseToHalf : Prop :=
  ∀ x : F32, isFinite x = true → |ratValue x| < 1 / 2 ^ 25 → unorm x = fHalf

/-- Both quantizers give 0 for every negative input, for −∞ and for every NaN (40_primitives.md R96, R97). -/
def Obligations.QuantizersSendNegativeAndNaNToZero : Prop :=
  ∀ f : F32, isNaN f = true ∨ signBit f = true → q15 f = 0 ∧ q16 f = 0

/-- In domain the normalised value is in [0, 1] and the codes fit their fields; outside the wrap of the mask
every one of UNORM, Q15 and Q16 is monotone on all data that are no NaN, so in domain a larger component never
gives a smaller code (40_primitives.md R100). SNORM is monotone on all data that are no NaN (R98), and neither
UNORM nor SNORM makes a NaN of one. -/
def Obligations.PrimitivesAreMonotoneAndFitInDomain : Prop :=
  (∀ x : F32, componentInDomain x = true →
    quantizerInDomain (unorm x) = true ∧
    (q16 (unorm x)).toNat ≤ 65535 ∧ q16 (unorm x) = ((q16 (unorm x)).setWidth 16).setWidth 32 ∧
    (q15 (unorm x)).toNat ≤ 32767 ∧ q15 (unorm x) = ((q15 (unorm x)).setWidth 15).setWidth 16) ∧
  (∀ x y : F32, isNaN x = false → isNaN y = false → signedUnits x ≤ signedUnits y →
    signedUnits (unorm x) ≤ signedUnits (unorm y) ∧
    signedUnits (snorm x) ≤ signedUnits (snorm y) ∧
    (q16 x).toNat ≤ (q16 y).toNat ∧
    (f2uSat (rndAway (fmul x fKY))).toNat ≤ (f2uSat (rndAway (fmul y fKY))).toNat) ∧
  (∀ x y : F32, componentInDomain x = true → componentInDomain y = true → signedUnits x ≤ signedUnits y →
    (q16 (unorm x)).toNat ≤ (q16 (unorm y)).toNat ∧
    (q15 (unorm x)).toNat ≤ (q15 (unorm y)).toNat) ∧
  (∀ x : F32, isNaN x = false → isNaN (unorm x) = false ∧ isNaN (snorm x) = false)

/-! ### PACK -/

/-- PACK answers a next state from every state on every operand: the operand enters the encoder's queue, the
operand that leaves it is presented as its word, and nothing else changes (41_encoder.md R110, R113;
10_state.md R27). -/
def Obligations.PackAlwaysCompletes : Prop :=
  ∀ (s : State) (x y z : F32), ∃ t, exec (.pack x y z) s = .next t ∧
    t.enc.queue = (s.enc.queue ++ [some (⟨x, y, z⟩ : Vec3)]).tail ∧
    t.enc.out = (s.enc.queue ++ [some (⟨x, y, z⟩ : Vec3)]).head?.join.map packWord ∧
    t.enc.cycle = s.enc.cycle + 1 ∧
    t.encLog = s.encLog ++ (t.enc.out.map fun w => (s.enc.cycle, w)).toList ∧
    t.dec = s.dec ∧ t.decLog = s.decLog ∧ t.config = s.config ∧ t.schedule = s.schedule ∧
    t.probe = s.probe

/-- Whatever the latency, the encoder presents the word of a PACK operand exactly `ENC_LATENCY` encoder cycles
later if no reset edge falls between: x normalised and quantized by 65535 in 31:16, y normalised and quantized by
32767 in 15:1, z < 0 in bit 0; and R110's worked example (41_encoder.md R110). -/
def Obligations.PackPresentsItsWordAfterLatency : Prop :=
  (∀ (s : State) (x y z : F32) (es rest : List Event), s.depthsHold →
    s.schedule = .enc (.offer x y z) :: (es ++ rest) →
    (encInputs es).length = s.config.encLatency → (∀ i ∈ encInputs es, i.rst = false) →
    ∃ t, RunsTo (es.length + 1) s t ∧ t.encValidO = true ∧
      t.encWordO =
        composeWord (f2uSat (rndAway (fmul (fmul (fadd x 0x3F800000) 0x3F000000) 0x477FFF00)))
          ((f2uSat (rndAway (fmul (fmul (fadd y 0x3F800000) 0x3F000000) 0x46FFFE00)) &&&
            0x0000FFFF).extractLsb' 0 16)
          (flt z 0x00000000) ∧
      t.encLog.getLast? = some (s.enc.cycle + s.config.encLatency, t.encWordO)) ∧
  unorm 0x3F19999A = 0x3F4CCCCD ∧ unorm 0x00000000 = 0x3F000000 ∧
  q16 0x3F4CCCCD = 52428 ∧ q15 0x3F000000 = 16384 ∧ flt 0xBF4CCCCD 0x00000000 = true ∧
  packWord ⟨0x3F19999A, 0x00000000, 0xBF4CCCCD⟩ = 0xCCCC8001

/-- The sign flag is 1 exactly when z[31] = 1, z[30:0] ≠ 0 and z is no NaN; z's magnitude changes nothing
(41_encoder.md R111). -/
def Obligations.SignFlagIsStrictlyNegative : Prop :=
  (∀ z : F32, zSignFlag z = true ↔
    z.getLsbD 31 = true ∧ z.extractLsb' 0 31 ≠ 0 ∧
    ¬(z.extractLsb' 23 8 = 0xFF ∧ z.extractLsb' 0 23 ≠ 0)) ∧
  (∀ x y z z' : F32, zSignFlag z = zSignFlag z' → packWord ⟨x, y, z⟩ = packWord ⟨x, y, z'⟩)

/-- Each field of a PACK word is a function of its own component, for every operand: x by UNORM, Q16 and the low
16 bits, y by UNORM, Q15 and the low 15 bits, z by one comparison (41_encoder.md R114). -/
def Obligations.PackLanesAreIndependent : Prop :=
  (∀ v : Vec3, (packWord v).extractLsb' 16 16 = (q16 (unorm v.x)).extractLsb' 0 16 ∧
    (packWord v).extractLsb' 1 15 = (q15 (unorm v.y)).extractLsb' 0 15 ∧
    (packWord v).getLsbD 0 = flt v.z fZero) ∧
  (∀ v v' : Vec3,
    (v.x = v'.x → (packWord v).extractLsb' 16 16 = (packWord v').extractLsb' 16 16) ∧
    (v.y = v'.y → (packWord v).extractLsb' 1 15 = (packWord v').extractLsb' 1 15) ∧
    (v.z = v'.z → (packWord v).getLsbD 0 = (packWord v').getLsbD 0))

/-- The rows of R116 that name whole operands or a class of them (41_encoder.md R116). -/
def Obligations.PackCornerCases : Prop :=
  packWord ⟨0x3F800000, 0, 0⟩ = 0xFFFF8000 ∧ packWord ⟨0, 0x3F800000, 0⟩ = 0x8000FFFE ∧
  packWord ⟨0, 0, 0x3F800000⟩ = 0x80008000 ∧ packWord ⟨0, 0, 0xBF800000⟩ = 0x80008001 ∧
  packWord ⟨0xBF800000, 0, 0⟩ = 0x00008000 ∧ packWord ⟨0, 0xBF800000, 0⟩ = 0x80000000 ∧
  packWord ⟨0, 0, 0⟩ = 0x80008000 ∧
  fieldX (packWord ⟨0x3F7FFF00, 0, 0⟩) = 65535 ∧ fieldX (packWord ⟨0x3F800008, 0, 0⟩) = 65535 ∧
  fieldX (packWord ⟨0x3F800080, 0, 0⟩) = 0 ∧ fieldX (packWord ⟨0x40400000, 0, 0⟩) = 0xFFFE ∧
  packWord ⟨0, 0x3F800100, 0⟩ = 0x80000000 ∧ fieldY (packWord ⟨0, 0x40000000, 0⟩) = 0x3FFF ∧
  packWord ⟨0x7F800000, 0x7F800000, 0x7F800000⟩ = 0xFFFFFFFE ∧
  packWord ⟨0xFF800000, 0xFF800000, 0xFF800000⟩ = 0x00000001 ∧
  (∀ x y z : F32, isNaN x = true → isNaN y = true → isNaN z = true → packWord ⟨x, y, z⟩ = 0) ∧
  (∀ x y z : F32, isNaN x = false → signedUnits x < signedUnits fNegOne →
    fieldX (packWord ⟨x, y, z⟩) = 0)

/-! ### UNPACK -/

/-- UNPACK answers a next state from every state on every word: the word enters the decoder's queue, the word
that leaves it is presented as its result, and nothing else changes (42_decoder.md R120, R127; 10_state.md
R27). -/
def Obligations.UnpackAlwaysCompletes : Prop :=
  ∀ (s : State) (w : Word), ∃ t, exec (.unpack w) s = .next t ∧
    t.dec.queue = (s.dec.queue ++ [some w]).tail ∧
    t.dec.out = (s.dec.queue ++ [some w]).head?.join.map (unpackWord s.config.radicandPolicy) ∧
    t.dec.cycle = s.dec.cycle + 1 ∧
    t.decLog = s.decLog ++ (t.dec.out.map fun r => (s.dec.cycle, r)).toList ∧
    t.enc = s.enc ∧ t.encLog = s.encLog ∧ t.config = s.config ∧ t.schedule = s.schedule ∧
    t.probe = s.probe

/-- Whatever the latency, the decoder presents the result of an UNPACK word exactly `DEC_LATENCY` decoder cycles
later if no reset edge falls between: x and y from their codes, z from the root of the radicand, and `derr`; and
R120's worked example (42_decoder.md R120). -/
def Obligations.UnpackPresentsItsVectorAfterLatency : Prop :=
  (∀ (s : State) (w : Word) (es rest : List Event), s.depthsHold → unwired es = true →
    s.config.radicandPolicy = .clamp →
    s.schedule = .dec (.offer w) :: (es ++ rest) →
    (decInputs es).length = s.config.decLatency → (∀ i ∈ decInputs es, i.rst = false) →
    ∃ (t : State) (fx fy rad : F32), RunsTo (es.length + 1) s t ∧
      fx = fsub (fmul (fdiv (u2f (w.extractLsb' 16 16)) 0x477FFF00) 0x40000000) 0x3F800000 ∧
      fy = fsub (fmul (fdiv (u2f ((w.extractLsb' 1 15).setWidth 16)) 0x46FFFE00) 0x40000000) 0x3F800000 ∧
      rad = fsub 0x3F800000 (fadd (fmul fx fx) (fmul fy fy)) ∧
      t.decValidO = true ∧ t.decXO = fx ∧ t.decYO = fy ∧
      t.decZO = fmul (fsqrt (if flt rad 0x00000000 then 0x00000000 else rad))
        (if w.getLsbD 0 then 0xBF800000 else 0x3F800000) ∧
      t.decDerrO = flt rad 0x00000000 ∧
      t.decLog.getLast? = some (s.dec.cycle + s.config.decLatency, ⟨fx, fy, t.decZO, t.decDerrO⟩)) ∧
  fdiv (u2f 52428) fKX = 0x3F4CCCCD ∧ fdiv (u2f 16384) fKY = 0x3F000100 ∧
  decodeX 52428 = 0x3F19999A ∧ decodeY 16384 = 0x38000000 ∧
  fmul 0x3F19999A 0x3F19999A = 0x3EB851EC ∧ fmul 0x38000000 0x38000000 = 0x30800000 ∧
  fadd 0x3EB851EC 0x30800000 = 0x3EB851EC ∧ fsub fOne 0x3EB851EC = 0x3F23D70A ∧
  fsqrt 0x3F23D70A = 0x3F4CCCCD ∧
  unpackWord .clamp 0xCCCC8001 = ⟨0x3F19999A, 0x38000000, 0xBF4CCCCD, false⟩

/-- De-quantization (42_decoder.md R122): the code converted exactly, divided, and mapped by SNORM; quotients in
[0, 1] and components in [−1, 1] with exact ends, strictly increasing in the code, never a NaN, an infinity or a
zero. -/
def Obligations.DecodedComponentsAreStrictlyIncreasing : Prop :=
  (∀ c : BitVec 16, ratValue (u2f c) = c.toNat ∧
    decodeX c = fsub (fmul (fdiv (u2f c) fKX) fTwo) fOne) ∧
  (∀ c : BitVec 15, ratValue (u2f (c.setWidth 16)) = c.toNat ∧
    decodeY c = fsub (fmul (fdiv (u2f (c.setWidth 16)) fKY) fTwo) fOne) ∧
  (∀ c : BitVec 16, quantizerInDomain (fdiv (u2f c) fKX) = true ∧
    componentInDomain (decodeX c) = true ∧ isFinite (decodeX c) = true ∧ isZero (decodeX c) = false) ∧
  (∀ c : BitVec 15, quantizerInDomain (fdiv (u2f (c.setWidth 16)) fKY) = true ∧
    componentInDomain (decodeY c) = true ∧ isFinite (decodeY c) = true ∧ isZero (decodeY c) = false) ∧
  (∀ c c' : BitVec 16, c.toNat < c'.toNat → flt (decodeX c) (decodeX c') = true) ∧
  (∀ c c' : BitVec 15, c.toNat < c'.toNat → flt (decodeY c) (decodeY c') = true) ∧
  fdiv (u2f 0) fKX = fZero ∧ fdiv (u2f 65535) fKX = fOne ∧
  fdiv (u2f 0) fKY = fZero ∧ fdiv (u2f 32767) fKY = fOne ∧
  decodeX 0 = fNegOne ∧ decodeX 65535 = fOne ∧ decodeY 0 = fNegOne ∧ decodeY 32767 = fOne

/-- The radicand (42_decoder.md R123): the ranges of its parts, exactly 1.0 when the sum is at most 2^−25, never
−0.0, never a NaN, and negative exactly when the sum is above 1.0. -/
def Obligations.RadicandIsNegativeExactlyOutsideDisk : Prop :=
  ∀ (cx : BitVec 16) (cy : BitVec 15) (sx sy sum rad : F32),
    sx = fmul (decodeX cx) (decodeX cx) → sy = fmul (decodeY cy) (decodeY cy) →
    sum = fadd sx sy → rad = radicand (decodeX cx) (decodeY cy) →
    rad = fsub fOne sum ∧
    inClosed 0x2F800000 fOne sx = true ∧ inClosed 0x30800000 fOne sy = true ∧
    inClosed 0x30A00000 fTwo sum = true ∧ inClosed fNegOne fOne rad = true ∧
    (signedUnits sum ≤ 2 ^ 124 → rad = fOne) ∧
    rad ≠ fNegZero ∧ isNaN rad = false ∧
    (flt rad fZero = true ↔ flt fOne sum = true)

/-- The radicand policy and the flag (42_decoder.md R124, R126): x, y and `derr` are the same under both
policies; outside the disk `derr` is 1, CLAMP gives a zero z of the flag's sign and NAN gives a NaN; inside it
`derr` is 0 and the two policies agree. -/
def Obligations.NegativeRadicandIsClampedAndSignalled : Prop :=
  ∀ w : Word,
    (unpackWord .nan w).x = (unpackWord .clamp w).x ∧ (unpackWord .nan w).y = (unpackWord .clamp w).y ∧
    (unpackWord .nan w).derr = (unpackWord .clamp w).derr ∧
    ((unpackWord .clamp w).derr = true ↔
      flt (radicand (unpackWord .clamp w).x (unpackWord .clamp w).y) fZero = true) ∧
    ((unpackWord .clamp w).derr = true →
      (unpackWord .clamp w).z = (if fieldS w then fNegZero else fZero) ∧
      isNaN (unpackWord .nan w).z = true) ∧
    ((unpackWord .clamp w).derr = false → unpackWord .nan w = unpackWord .clamp w)

/-- The root is in [+0.0, 1.0] and z is the root with the flag as its sign bit, the zero root included
(42_decoder.md R125). -/
def Obligations.SignOfZIsTheFlag : Prop :=
  ∀ (w : Word) (mag : F32),
    mag = fsqrt (guardRadicand .clamp (radicand (decodeX (fieldX w)) (decodeY (fieldY w)))) →
    inClosed fZero fOne mag = true ∧ signBit mag = false ∧
    (unpackWord .clamp w).z = fmul mag (if fieldS w then fNegOne else fOne) ∧
    (unpackWord .clamp w).z = (if fieldS w then fneg mag else mag) ∧
    signBit (unpackWord .clamp w).z = fieldS w

/-- Under CLAMP every word decodes to finite components in [−1, 1], x and y not zero (42_decoder.md R127). -/
def Obligations.UnpackIsTotalAndFinite : Prop :=
  (∀ w : Word,
    isFinite (unpackWord .clamp w).x = true ∧ isFinite (unpackWord .clamp w).y = true ∧
    isFinite (unpackWord .clamp w).z = true ∧
    componentInDomain (unpackWord .clamp w).x = true ∧ componentInDomain (unpackWord .clamp w).y = true ∧
    componentInDomain (unpackWord .clamp w).z = true ∧
    isZero (unpackWord .clamp w).x = false ∧ isZero (unpackWord .clamp w).y = false) ∧
  (∀ (s : State) (w : Word), ∃ t, exec (.unpack w) s = .next t)

/-- The rows of R129 (42_decoder.md R129). -/
def Obligations.UnpackCornerCases : Prop :=
  unpackWord .clamp 0x80008000 = ⟨0x37800000, 0x38000000, 0x3F800000, false⟩ ∧
  unpackWord .clamp 0x80008001 = ⟨0x37800000, 0x38000000, 0xBF800000, false⟩ ∧
  unpackWord .clamp 0x7FFF7FFE = ⟨0xB7800000, 0xB8000000, 0x3F800000, false⟩ ∧
  unpackWord .clamp 0xFFFF8000 = ⟨0x3F800000, 0x38000000, 0x00000000, false⟩ ∧
  unpackWord .clamp 0xFFFF8001 = ⟨0x3F800000, 0x38000000, 0x80000000, false⟩ ∧
  unpackWord .clamp 0x00000000 = ⟨0xBF800000, 0xBF800000, 0x00000000, true⟩ ∧
  unpackWord .clamp 0xFFFFFFFF = ⟨0x3F800000, 0x3F800000, 0x80000000, true⟩ ∧
  unpackWord .clamp 0xFFFFFFFE = ⟨0x3F800000, 0x3F800000, 0x00000000, true⟩ ∧
  unpackWord .clamp 0x00010002 = ⟨0xBF7FFE00, 0xBF7FFC00, 0x00000000, true⟩ ∧
  unpackWord .clamp 0xDA82DA80 = ⟨0x3F3505B6, 0x3F35036A, 0x3B861ABC, false⟩ ∧
  unpackWord .clamp 0xC528EBB4 = ⟨0x3F0A518A, 0x3F576BAE, 0x00000000, true⟩

/-! ### Round trips -/

/-- Every x code and every y code is what its decoded value quantizes to (42_decoder.md R128, its last two
rows). -/
def Obligations.RequantizationIsIdentity : Prop :=
  (∀ c : BitVec 16, q16 (unorm (decodeX c)) = c.setWidth 32) ∧
  (∀ c : BitVec 15, q15 (unorm (decodeY c)) = c.setWidth 16)

/-- REPACK reproduces bits 31:1 of every word, and bit 0 exactly when it was 0 or the decoded z is strictly
negative (42_decoder.md R130 (f), 90_conflicts.md C2). -/
def Obligations.RepackReproducesAllButLostSigns : Prop :=
  ∀ (policy : RadicandPolicy) (w : Word),
    fieldX (repack policy w) = fieldX w ∧ fieldY (repack policy w) = fieldY w ∧
    (fieldS (repack policy w) = fieldS w ↔
      fieldS w = false ∨ flt (unpackWord policy w).z fZero = true)

/-- Every word is the PACK result of an operand in domain (30_encoding.md R67). -/
def Obligations.EveryWordIsAPackResult : Prop :=
  ∀ w : Word, ∃ v : Vec3, packInDomain v = true ∧ packWord v = w

/-- For x and y in [−1, 1] the round trip returns them within the acceptance tolerance (42_decoder.md R130 (a),
R131; 90_conflicts.md C1). -/
def Obligations.RoundTripKeepsXAndYWithinTolerance : Prop :=
  ∀ (policy : RadicandPolicy) (v : Vec3), packInDomain v = true →
    approxEq (roundTrip policy v).x v.x = true ∧ approxEq (roundTrip policy v).y v.y = true

/-- The three expectations of NC that the algorithm does not meet: a unit vector whose z returns outside the
tolerance (C1), a repack that loses bit 0 (C2), an axis vector whose zero component does not return (C3)
(90_conflicts.md; 42_decoder.md R130). -/
def Obligations.UnrestrictedRoundTripClaimsFail : Prop :=
  approxEq (roundTrip .clamp ⟨0xBEDEDCCA, 0xBF6679CC, 0x00000000⟩).z 0x00000000 = false ∧
  packWord ⟨0x3F800000, 0x00000000, 0x80000001⟩ = 0xFFFF8001 ∧ repack .clamp 0xFFFF8001 = 0xFFFF8000 ∧
  (roundTrip .clamp ⟨0x3F800000, 0x00000000, 0x00000000⟩).y = 0x38000000

/-! ### The machine -/

/-- A step whose next event presents an operand runs exec of what the decoder reads from that operand's bytes, on
the state without the event; and after withFetchWord puts a table word in front, the step runs exec of what that
word decodes to. The operation is the port's (30_encoding.md R65). The rest is the model's choice and no rule: that
a step takes the first event of a schedule in State (log entry 2), the bytes of an operand (log entry 10), and
withFetchWord with the widths of its words (log entries 2 and 11). -/
def Obligations.StepRunsTheDecodedInstruction : Prop :=
  (∀ (s : State) (e : Event) (rest : List Event) (o : Operand) (i : Instr),
    s.schedule = e :: rest → ({ s with schedule := rest } : State).presented e = some o →
    decode o.port o.bytes = .ok i → step s = exec i { s with schedule := rest }) ∧
  (∀ (s : State) (nbits w : Nat) (i : Instr), decodeTableWord nbits w = some i →
    step (s.withFetchWord nbits w) = exec i s)

/-- Every step is a next state, and so is exec of every instruction (60_exceptions.md R140). -/
def Obligations.EveryStepIsANextState : Prop :=
  (∀ s : State, ∃ t, step s = .next t) ∧ (∀ (i : Instr) (s : State), ∃ t, exec i s = .next t)

/-- Every step, and exec of every instruction, keeps the depth of both queues, from every state that has it
(10_state.md R27). -/
def Obligations.StepKeepsQueueDepths : Prop :=
  (∀ s t : State, s.depthsHold → step s = .next t → t.depthsHold) ∧
  (∀ (i : Instr) (s t : State), s.depthsHold → exec i s = .next t → t.depthsHold)

/-- Right after reset, for every build: queues of the right depth with every entry empty, every `valid` output 0,
`dec_derr_o` 0; and this hardware has latency 0 in both units and clamps (10_state.md R30, 00_scope.md R7). The
empty logs and schedule are the model's choice, log entries 2 and 9. -/
def Obligations.ResetLeavesQueuesEmptyAndValidLow : Prop :=
  (∀ c : Config, (State.resetWith c).config = c ∧ (State.resetWith c).depthsHold ∧
    (State.resetWith c).encEmpty ∧ (State.resetWith c).decEmpty ∧
    (State.resetWith c).encValidO = false ∧ (State.resetWith c).decValidO = false ∧
    (State.resetWith c).decDerrO = false) ∧
  State.reset = State.resetWith ⟨0, 0, .clamp⟩ ∧ State.reset.depthsHold

/-- No step changes a build parameter, and none starts an internal primitive (00_scope.md R2, R18; 10_state.md
R24). The probe is the model's own field, log entry 1. -/
def Obligations.StepKeepsParametersAndNeverStartsAPrimitive : Prop :=
  ∀ s t : State, step s = .next t → t.config = s.config ∧ t.probe = s.probe

/-- With `valid` 0 the operand data inputs have no effect: two cycles that differ only in them give the same
state (10_state.md R32). A decoder cycle wired to the encoder while `enc_valid_o` is 0, whose `dec_word_i` is then
the unspecified `enc_word_o`, gives the same state as an unwired one with `valid` 0 and any word whatever
(10_state.md R33, 20_memory.md R51). -/
def Obligations.DataWithoutValidHasNoEffect : Prop :=
  (∀ (s : State) (i j : EncIn) (rest : List Event),
    i.valid = false → j.valid = false → i.rst = j.rst →
    step { s with schedule := .enc i :: rest } = step { s with schedule := .enc j :: rest }) ∧
  (∀ (s : State) (i j : DecIn) (rest : List Event),
    i.valid = false → j.valid = false → i.rst = j.rst →
    step { s with schedule := .dec i :: rest } = step { s with schedule := .dec j :: rest }) ∧
  (∀ (s : State) (i : DecIn) (rest : List Event), s.encValidO = false → i.valid = false →
    step { s with schedule := .decWired i.rst :: rest } = step { s with schedule := .dec i :: rest })

/-- `dec_derr_o` is 0 whenever `dec_valid_o` is 0. In every decoder cycle outside reset, idle or not, wired to the
encoder or not, and whatever the latency, a result is presented exactly when the queue with what enters behind it
has an operand at its head, and `dec_derr_o` is 1 exactly when the radicand of that operand is negative
(10_state.md R23). In a cycle with `rst` 1 nothing enters; that a result already at the head is still presented in
it, with its own flag, is the model's reading, log entry 6. -/
def Obligations.DomainErrorFlagTravelsWithItsResult : Prop :=
  (∀ s : State, s.decValidO = false → s.decDerrO = false) ∧
  (∀ (s : State) (e : Event) (rest : List Event) (i : DecIn), s.schedule = e :: rest →
    s.decCycleInputs e = some i →
    ∃ t, step s = .next t ∧
      (∀ w : Word, i.rst = false →
        (s.dec.queue ++ [if i.valid then some i.word else none]).head? = some (some w) →
        t.decValidO = true ∧
          t.decDerrO = flt (radicand (decodeX (fieldX w)) (decodeY (fieldY w))) fZero) ∧
      (i.rst = false → (s.dec.queue ++ [if i.valid then some i.word else none]).head? = some none →
        t.decValidO = false ∧ t.decDerrO = false) ∧
      (∀ w : Word, i.rst = true → (s.dec.queue ++ [none]).head? = some (some w) →
        t.decValidO = true ∧
          t.decDerrO = flt (radicand (decodeX (fieldX w)) (decodeY (fieldY w))) fZero) ∧
      (i.rst = true → (s.dec.queue ++ [none]).head? = some none →
        t.decValidO = false ∧ t.decDerrO = false))

/-- A reset edge empties the encoder's queue and ignores the operand offered at it, whatever was there; with
latency 0 the cycle presents nothing; the decoder is untouched (70_reset_and_hazards.md R161, R162, R169). -/
def Obligations.EncoderResetEdgeEmptiesItsQueue : Prop :=
  ∀ (s : State) (i : EncIn) (rest : List Event), s.schedule = .enc i :: rest → i.rst = true →
    ∃ t, step s = .next t ∧ t.encEmpty ∧
      (s.enc.queue = [] → t.encValidO = false ∧ t.encLog = s.encLog) ∧
      (∀ j : EncIn, j.rst = true → step { s with schedule := .enc j :: rest } = .next t) ∧
      t.dec = s.dec ∧ t.decLog = s.decLog ∧ t.config = s.config ∧ t.schedule = rest

/-- A reset edge empties the decoder's queue and ignores the operand offered at it, whatever was there and whether
the cycle is wired to the encoder or not; with latency 0 the cycle presents nothing and `dec_derr_o` is 0; the
encoder is untouched (70_reset_and_hazards.md R161, R162, R169; 20_memory.md R51). -/
def Obligations.DecoderResetEdgeEmptiesItsQueue : Prop :=
  ∀ (s : State) (e : Event) (rest : List Event) (i : DecIn), s.schedule = e :: rest →
    s.decCycleInputs e = some i → i.rst = true →
    ∃ t, step s = .next t ∧ t.decEmpty ∧
      (s.dec.queue = [] → t.decValidO = false ∧ t.decDerrO = false ∧ t.decLog = s.decLog) ∧
      (∀ (e' : Event) (j : DecIn), s.decCycleInputs e' = some j → j.rst = true →
        step { s with schedule := e' :: rest } = .next t) ∧
      t.enc = s.enc ∧ t.encLog = s.encLog ∧ t.config = s.config ∧ t.schedule = rest

/-- A transaction in flight at a reset edge is dropped: after the edge no result is presented for as long as
nothing new is begun, whatever was in the queues; in the decoder also when the reset cycle or a later one is wired
to the encoder (70_reset_and_hazards.md R162; 20_memory.md R51). -/
def Obligations.TransactionsInFlightAtResetAreDropped : Prop :=
  (∀ (s t : State) (i : EncIn) (es rest : List Event), i.rst = true →
    s.schedule = .enc i :: (es ++ rest) → step s = .next t →
    (∀ j ∈ encInputs es, j.valid = false ∨ j.rst = true) →
    ∃ u, RunsTo (es.length + 1) s u ∧ u.encLog = t.encLog ∧ u.encEmpty ∧
      (encInputs es ≠ [] → u.encValidO = false)) ∧
  (∀ (s t : State) (e : Event) (i : DecIn) (es rest : List Event), s.decCycleInputs e = some i →
    i.rst = true → s.schedule = e :: (es ++ rest) → step s = .next t →
    decoderBeginsNothing t es = true →
    ∃ u, RunsTo (es.length + 1) s u ∧ u.decLog = t.decLog ∧ u.decEmpty ∧
      (es.any Event.isDecoder = true → u.decValidO = false ∧ u.decDerrO = false))

/-- An encoder cycle and a decoder cycle that is not wired to it may happen in either order
(20_memory.md R46; 60_exceptions.md R152). -/
def Obligations.UnitsDoNotInteract : Prop :=
  ∀ (s : State) (i : EncIn) (j : DecIn) (rest : List Event),
    Host.Core.run Sys2Proof.core 2 { s with schedule := .enc i :: .dec j :: rest } =
      Host.Core.run Sys2Proof.core 2 { s with schedule := .dec j :: .enc i :: rest }

/-- What the encoder holds, shows and has given after any schedule depends on the encoder's own inputs alone: two
runs that agree on those agree on these, whatever the decoder is, holds or is driven with (20_memory.md R46;
60_exceptions.md R152). -/
def Obligations.EncoderLearnsNothingFromTheDecoder : Prop :=
  ∀ (s s' : State) (es es' rest rest' : List Event),
    s.enc = s'.enc → s.encLog = s'.encLog → s.config.encLatency = s'.config.encLatency →
    encInputs es = encInputs es' → s.schedule = es ++ rest → s'.schedule = es' ++ rest' →
    ∃ t t', RunsTo es.length s t ∧ RunsTo es'.length s' t' ∧
      t.enc = t'.enc ∧ t.encLog = t'.encLog

/-- From an empty queue and without reset, the encoder's results are the words of its operands, one each, in their
order, that of the operand of cycle t presented in cycle t + `ENC_LATENCY` and in no other; and once drained its
queue is as reset leaves it (20_memory.md R46; 70_reset_and_hazards.md R164, R166, R170). -/
def Obligations.EncoderResultsAreImagesInOrder : Prop :=
  ∀ (s : State) (es rest : List Event) (given drain : List EncIn), s.encEmpty →
    s.schedule = es ++ rest → encInputs es = given ++ drain →
    drain.length = s.config.encLatency → (∀ i ∈ drain, i.valid = false) →
    (∀ i ∈ given ++ drain, i.rst = false) →
    ∃ t, RunsTo es.length s t ∧
      t.encLog = s.encLog ++ encResultsDue s.config.encLatency s.enc.cycle given ∧
      t.encEmpty ∧ t.schedule = rest ∧ t.config = s.config

/-- As `EncoderResultsAreImagesInOrder`, for the decoder under either policy (20_memory.md R46;
70_reset_and_hazards.md R164, R166, R170). -/
def Obligations.DecoderResultsAreImagesInOrder : Prop :=
  ∀ (s : State) (es rest : List Event) (given drain : List DecIn), s.decEmpty → unwired es = true →
    s.schedule = es ++ rest → decInputs es = given ++ drain →
    drain.length = s.config.decLatency → (∀ i ∈ drain, i.valid = false) →
    (∀ i ∈ given ++ drain, i.rst = false) →
    ∃ t, RunsTo es.length s t ∧
      t.decLog = s.decLog ++ decResultsDue s.config.radicandPolicy s.config.decLatency s.dec.cycle given ∧
      t.decEmpty ∧ t.schedule = rest ∧ t.config = s.config

/-- With the encoder wired to the decoder on a shared clock, the decoder presents the round trip of a vector
`ENC_LATENCY` + `DEC_LATENCY` cycles after the vector entered the encoder (20_memory.md R51). -/
def Obligations.WiredRoundTripTakesBothLatencies : Prop :=
  ∀ (s : State) (x y z : F32) (more : List EncIn) (rest : List Event), s.depthsHold →
    s.schedule = wiredCycles (.offer x y z :: more) ++ rest →
    more.length = s.config.encLatency + s.config.decLatency → (∀ i ∈ more, i.rst = false) →
    ∃ t, RunsTo (2 * (s.config.encLatency + s.config.decLatency + 1)) s t ∧
      t.dec.out = some (roundTrip s.config.radicandPolicy ⟨x, y, z⟩) ∧
      t.dec.cycle = s.dec.cycle + (s.config.encLatency + s.config.decLatency) + 1

/-- Once the schedule is used up the hardware goes on idling: a step is then one clock cycle of each unit with
nothing offered and out of reset, and after as many steps as the longer latency every transaction that was in
flight has given its result, in order and each in its own cycle, nothing else has been presented, and both queues
are empty (70_reset_and_hazards.md R162, R164, R170; 10_state.md R27). That a step without an event clocks both
units is the model's choice, log entry 3; the collected results and their cycle numbers are the model's own fields,
log entry 9. -/
def Obligations.IdleMachineDrains : Prop :=
  (∀ s : State, s.schedule = [] →
    step s = Host.Core.run Sys2Proof.core 2 { s with schedule := [.enc .idle, .dec .idle] }) ∧
  (∀ (s : State) (n : Nat), s.depthsHold → s.schedule = [] →
    s.config.encLatency ≤ n → s.config.decLatency ≤ n →
    ∃ t, RunsTo n s t ∧ t.encEmpty ∧ t.decEmpty ∧ t.schedule = [] ∧ t.config = s.config ∧
      t.enc.cycle = s.enc.cycle + n ∧ t.dec.cycle = s.dec.cycle + n ∧
      t.encLog = s.encLog ++ encInFlightDue s.enc.cycle s.enc.queue ∧
      t.decLog = s.decLog ++ decInFlightDue s.config.radicandPolicy s.dec.cycle s.dec.queue)

/-- What the decoder holds, shows and has given after any schedule that is not wired depends on the decoder's own
inputs alone, from any queue: two runs that agree on those and on the decoder's parameters agree on these, whatever
the encoder is, holds or is driven with (20_memory.md R46; 60_exceptions.md R152). -/
def Obligations.DecoderLearnsNothingFromTheEncoder : Prop :=
  ∀ (s s' : State) (es es' rest rest' : List Event),
    s.dec = s'.dec → s.decLog = s'.decLog → s.config.decLatency = s'.config.decLatency →
    s.config.radicandPolicy = s'.config.radicandPolicy → unwired es = true → unwired es' = true →
    decInputs es = decInputs es' → s.schedule = es ++ rest → s'.schedule = es' ++ rest' →
    ∃ t t', RunsTo es.length s t ∧ RunsTo es'.length s' t' ∧
      t.dec = t'.dec ∧ t.decLog = t'.decLog
end

