-- ==== Sys2Proof/Laws/Float.lean ====
section
/-! SUPPORT. The small lemmas of the binary32 arithmetic: the fields of a datum made from sign and magnitude,
what rounding gives, and each operation on finite data in terms of the one rounding. -/

namespace Sys2Proof.Laws

open Sys2Proof Sys2Proof.Machine

/-! ### Fields and classes -/

theorem expField_lt (a : F32) : expField a < 256 := (a.extractLsb' 23 8).isLt

theorem fracField_lt (a : F32) : fracField a < 2 ^ 23 := (a.extractLsb' 0 23).isLt

@[simp] theorem signBit_ofSignMag (s : Bool) (p : Nat) : signBit (ofSignMag s p) = s := by
  simp only [signBit, ofSignMag, BitVec.getLsbD_append, lt_irrefl, if_false, Nat.sub_self]
  cases s <;> rfl

theorem expField_ofSignMag (s : Bool) (p : Nat) : expField (ofSignMag s p) = p / 2 ^ 23 % 256 := by
  simp only [expField, ofSignMag, BitVec.extractLsb'_toNat, BitVec.toNat_append, BitVec.toNat_ofNat,
    Nat.shiftRight_eq_div_pow]
  have hlt : p % 2 ^ 31 < 2 ^ 31 := Nat.mod_lt _ (by norm_num)
  rw [← Nat.shiftLeft_add_eq_or_of_lt hlt, Nat.shiftLeft_eq]
  omega

theorem fracField_ofSignMag (s : Bool) (p : Nat) : fracField (ofSignMag s p) = p % 2 ^ 23 := by
  simp only [fracField, ofSignMag, BitVec.extractLsb'_toNat, BitVec.toNat_append, BitVec.toNat_ofNat,
    Nat.shiftRight_eq_div_pow]
  have hlt : p % 2 ^ 31 < 2 ^ 31 := Nat.mod_lt _ (by norm_num)
  rw [← Nat.shiftLeft_add_eq_or_of_lt hlt, Nat.shiftLeft_eq]
  omega

theorem isZero_iff_units (a : F32) : isZero a = true ↔ units a = 0 := by
  simp only [isZero, units, significand, Bool.and_eq_true, beq_iff_eq]
  split <;> simp_all

theorem isFinite_iff_expField (a : F32) : isFinite a = true ↔ expField a < 255 := by
  have := expField_lt a
  simp only [isFinite, bne_iff_ne, ne_eq]
  omega

theorem isNaN_of_isFinite {a : F32} (h : isFinite a = true) : isNaN a = false := by
  simp_all [isFinite, isNaN]

theorem isInf_of_isFinite {a : F32} (h : isFinite a = true) : isInf a = false := by
  simp_all [isFinite, isInf]

/-- Every datum is exactly one of NaN, infinite and finite. -/
theorem class_cases (a : F32) :
    (isNaN a = true ∧ isInf a = false ∧ isFinite a = false) ∨
    (isNaN a = false ∧ isInf a = true ∧ isFinite a = false) ∨
    (isNaN a = false ∧ isInf a = false ∧ isFinite a = true) := by
  by_cases h1 : expField a = 255 <;> by_cases h2 : fracField a = 0 <;> simp [isNaN, isInf, isFinite, h1, h2]

theorem signedUnits_natAbs (a : F32) : (signedUnits a).natAbs = units a := by
  simp only [signedUnits]
  split <;> simp

/-- A significand has at most 24 bits. -/
theorem significand_lt (a : F32) : significand a < 2 ^ 24 := by
  have := fracField_lt a
  simp only [significand]
  split <;> omega

/-- A finite magnitude is below 2^277 units. -/
theorem units_lt_of_isFinite {a : F32} (h : isFinite a = true) : units a < 2 ^ 277 := by
  have hE := (isFinite_iff_expField a).1 h
  calc units a < 2 ^ 24 * 2 ^ (expField a - 1) :=
        Nat.mul_lt_mul_of_pos_right (significand_lt a) (by positivity)
    _ ≤ 2 ^ 24 * 2 ^ 253 := Nat.mul_le_mul_left _ (Nat.pow_le_pow_right (by norm_num) (by omega))
    _ = 2 ^ 277 := by rw [← pow_add]

@[simp] theorem signBit_fneg (b : F32) : signBit (fneg b) = !signBit b := by
  simp only [signBit, fneg, BitVec.getLsbD_xor]
  rw [show (0x80000000 : BitVec 32).getLsbD 31 = true from by decide]
  cases b.getLsbD 31 <;> rfl

/-! ### Rounding -/

/-- `roundHalfEven` is within half of the exact quotient. -/
theorem roundHalfEven_near (num den : Nat) (h : 0 < den) :
    2 * num ≤ (2 * roundHalfEven num den + 1) * den ∧ 2 * roundHalfEven num den * den ≤ 2 * num + den := by
  have hdm := Nat.div_add_mod num den
  have hlt := Nat.mod_lt num h
  simp only [roundHalfEven]
  generalize num / den = q at *
  generalize num % den = r at *
  subst hdm
  have hq := Nat.mod_two_eq_zero_or_one q
  split
  · constructor <;> nlinarith
  · split
    · constructor <;> nlinarith
    · rcases hq with hq | hq <;> rw [hq] <;> constructor <;> nlinarith

/-- `roundHalfEven` takes the even one of two equally near whole numbers. -/
theorem roundHalfEven_tie (num den : Nat) (h : 2 * (num % den) = den) : roundHalfEven num den % 2 = 0 := by
  simp only [roundHalfEven, h, lt_irrefl, if_false]
  omega

/-- `roundHalfEven` of an exact multiple is the multiple. -/
theorem roundHalfEven_mul (q den : Nat) (h : 0 < den) : roundHalfEven (q * den) den = q := by
  have : ¬ den < 0 := by omega
  simp [roundHalfEven, h, Nat.mul_div_cancel q h]

theorem roundHalfEven_le {num den b : Nat} (hd : 0 < den) (h : num ≤ b * den) : roundHalfEven num den ≤ b := by
  have h2 := (roundHalfEven_near num den hd).2
  by_contra hc
  have hb : b + 1 ≤ roundHalfEven num den := by omega
  have : 2 * (b + 1) * den ≤ 2 * roundHalfEven num den * den := by nlinarith
  nlinarith

theorem le_roundHalfEven {num den b : Nat} (hd : 0 < den) (h : b * den ≤ num) : b ≤ roundHalfEven num den := by
  have h1 := (roundHalfEven_near num den hd).1
  by_contra hc
  have hb : roundHalfEven num den + 1 ≤ b := by omega
  have : (roundHalfEven num den + 1) * den ≤ b * den := Nat.mul_le_mul_right _ hb
  nlinarith

/-- The binade of an exact magnitude, as `roundMagnitude` counts them. -/
def binade (num den : Nat) : Nat := Nat.log2 (num / den) - 23

/-- The significand that `roundMagnitude` rounds to. -/
def roundedSignificand (num den : Nat) : Nat := roundHalfEven num (den * 2 ^ binade num den)

theorem roundMagnitude_eq (num den : Nat) : roundMagnitude num den =
    min (binade num den * 2 ^ 23 + roundedSignificand num den) 0x7F800000 := rfl

/-- The rounded significand has at most 24 bits, but for a carry to 2^24. -/
theorem roundedSignificand_le (num den : Nat) (hd : 0 < den) : roundedSignificand num den ≤ 2 ^ 24 := by
  refine roundHalfEven_le (by positivity) ?_
  have hlt : num / den < 2 ^ (Nat.log2 (num / den) + 1) := Nat.lt_log2_self
  have hpow : 2 ^ (Nat.log2 (num / den) + 1) ≤ 2 ^ (24 + binade num den) :=
    Nat.pow_le_pow_right (by norm_num) (by unfold binade; omega)
  have : num < 2 ^ (24 + binade num den) * den := (Nat.div_lt_iff_lt_mul hd).1 (hlt.trans_le hpow)
  calc num ≤ 2 ^ (24 + binade num den) * den := this.le
    _ = 2 ^ 24 * (den * 2 ^ binade num den) := by rw [pow_add]; ring

/-- Above the lowest binade the rounded significand is normal. -/
theorem le_roundedSignificand (num den : Nat) (hd : 0 < den) (hb : 0 < binade num den) :
    2 ^ 23 ≤ roundedSignificand num den := by
  refine le_roundHalfEven (by positivity) ?_
  have hq : num / den ≠ 0 := by
    intro h
    simp [binade, h] at hb
  have hle : 2 ^ Nat.log2 (num / den) ≤ num / den := Nat.log2_self_le hq
  have he : Nat.log2 (num / den) = 23 + binade num den := by unfold binade at *; omega
  calc 2 ^ 23 * (den * 2 ^ binade num den) = 2 ^ Nat.log2 (num / den) * den := by rw [he, pow_add]; ring
    _ ≤ num / den * den := Nat.mul_le_mul_right _ hle
    _ ≤ num := Nat.div_mul_le_self num den

/-- The magnitude of a datum made from a binade and a significand. -/
theorem units_ofSignMag (s : Bool) (e m : Nat) (hm : m ≤ 2 ^ 24) (hn : 0 < e → 2 ^ 23 ≤ m)
    (hp : e * 2 ^ 23 + m < 0x7F800000) : units (ofSignMag s (e * 2 ^ 23 + m)) = m * 2 ^ e := by
  simp only [units, significand, expField_ofSignMag, fracField_ofSignMag]
  rcases Nat.lt_or_ge m (2 ^ 23) with h | h
  · obtain rfl : e = 0 := by omega
    have h1 : (0 * 2 ^ 23 + m) / 2 ^ 23 % 256 = 0 := by omega
    have h2 : (0 * 2 ^ 23 + m) % 2 ^ 23 = m := by omega
    rw [h1, h2, if_pos rfl]
  · rcases Nat.lt_or_ge m (2 ^ 24) with h' | h'
    · have h1 : (e * 2 ^ 23 + m) / 2 ^ 23 % 256 = e + 1 := by omega
      have h2 : (e * 2 ^ 23 + m) % 2 ^ 23 = m - 2 ^ 23 := by omega
      rw [h1, h2, if_neg (by omega), Nat.add_sub_cancel' h, Nat.add_sub_cancel]
    · obtain rfl : m = 2 ^ 24 := by omega
      have h1 : (e * 2 ^ 23 + 2 ^ 24) / 2 ^ 23 % 256 = e + 2 := by omega
      have h2 : (e * 2 ^ 23 + 2 ^ 24) % 2 ^ 23 = 0 := by omega
      rw [h1, h2, if_neg (by omega)]
      simp only [Nat.add_zero, show e + 2 - 1 = e + 1 from rfl, pow_succ]
      ring

@[simp] theorem signBit_roundF32 (s : Bool) (num den : Nat) : signBit (roundF32 s num den) = s :=
  signBit_ofSignMag _ _

/-- A rounded result is never a NaN. -/
@[simp] theorem isNaN_roundF32 (s : Bool) (num den : Nat) : isNaN (roundF32 s num den) = false := by
  have h : roundMagnitude num den ≤ 0x7F800000 := Nat.min_le_right _ _
  simp only [isNaN, roundF32, expField_ofSignMag, fracField_ofSignMag, Bool.and_eq_false_iff,
    beq_eq_false_iff_ne, bne_eq_false_iff_eq]
  omega

/-- What rounding gives below the pattern of infinity: the rounded significand in its binade. -/
theorem units_roundF32 (s : Bool) (num den : Nat) (hd : 0 < den)
    (hp : binade num den * 2 ^ 23 + roundedSignificand num den < 0x7F800000) :
    isFinite (roundF32 s num den) = true ∧
    units (roundF32 s num den) = roundedSignificand num den * 2 ^ binade num den := by
  have hr : roundMagnitude num den = binade num den * 2 ^ 23 + roundedSignificand num den := by
    rw [roundMagnitude_eq]; omega
  constructor
  · simp only [isFinite_iff_expField, roundF32, hr, expField_ofSignMag]
    omega
  · rw [roundF32, hr]
    exact units_ofSignMag s _ _ (roundedSignificand_le num den hd) (le_roundedSignificand num den hd) hp

/-- What rounding gives from the pattern of infinity up. -/
theorem roundF32_overflow (s : Bool) (num den : Nat)
    (hp : 0x7F800000 ≤ binade num den * 2 ^ 23 + roundedSignificand num den) :
    roundF32 s num den = infinity s := by
  rw [roundF32, roundMagnitude_eq, Nat.min_eq_right hp, infinity]

/-- The error of rounding is at most half a step of the binade. -/
theorem roundedSignificand_near (num den : Nat) (hd : 0 < den) :
    2 * num ≤ (2 * roundedSignificand num den + 1) * (den * 2 ^ binade num den) ∧
    2 * roundedSignificand num den * (den * 2 ^ binade num den) ≤ 2 * num + den * 2 ^ binade num den :=
  roundHalfEven_near num _ (by positivity)

/-! ### The whole square root -/

theorem isqrtFrom_spec (n k r : Nat) (hlo : r * r ≤ n) (hhi : n < (r + 2 ^ k) * (r + 2 ^ k)) :
    isqrtFrom n k r * isqrtFrom n k r ≤ n ∧ n < (isqrtFrom n k r + 1) * (isqrtFrom n k r + 1) := by
  induction k generalizing r with
  | zero => exact ⟨hlo, by simpa [isqrtFrom] using hhi⟩
  | succ k ih =>
    simp only [isqrtFrom]
    split
    · rename_i h
      exact ih _ h (by rwa [Nat.add_assoc, ← Nat.two_mul, ← Nat.pow_succ'])
    · rename_i h
      exact ih _ hlo (by omega)

/-- `isqrt` is the whole part of the square root. -/
theorem isqrt_spec (n : Nat) : isqrt n * isqrt n ≤ n ∧ n < (isqrt n + 1) * (isqrt n + 1) := by
  refine isqrtFrom_spec n _ 0 (by simp) ?_
  have h : n < 2 ^ (Nat.log2 n + 1) := Nat.lt_log2_self
  have h2 : 2 ^ (Nat.log2 n + 1) ≤ 2 ^ (Nat.log2 n / 2 + 1) * 2 ^ (Nat.log2 n / 2 + 1) := by
    rw [← pow_add]
    exact Nat.pow_le_pow_right (by norm_num) (by omega)
  simpa using h.trans_le h2

/-! ### The operations on finite data -/

theorem fadd_finite {a b : F32} (ha : isFinite a = true) (hb : isFinite b = true) :
    fadd a b = faddFinite a b := by
  simp [fadd, isNaN_of_isFinite ha, isNaN_of_isFinite hb, isInf_of_isFinite ha, isInf_of_isFinite hb]

theorem faddFinite_zero {a b : F32} (h : signedUnits a + signedUnits b = 0) :
    faddFinite a b = ofSignMag (signBit a && signBit b) 0 := by
  simp [faddFinite, h]

theorem faddFinite_round {a b : F32} (h : signedUnits a + signedUnits b ≠ 0) :
    faddFinite a b = roundF32 (decide (signedUnits a + signedUnits b < 0))
      (signedUnits a + signedUnits b).natAbs 1 := by
  simp [faddFinite, h]

theorem fmul_finite {a b : F32} (ha : isFinite a = true) (hb : isFinite b = true) :
    fmul a b = roundF32 (signBit a != signBit b) (units a * units b) (2 ^ 149) := by
  simp only [fmul, isNaN_of_isFinite ha, isNaN_of_isFinite hb, isInf_of_isFinite ha, isInf_of_isFinite hb,
    Bool.or_self, Bool.false_eq_true, if_false]

theorem fdiv_finite {a b : F32} (ha : isFinite a = true) (hb : isFinite b = true) (h0 : isZero b = false) :
    fdiv a b = roundF32 (signBit a != signBit b) (units a * 2 ^ 149) (units b) := by
  simp only [fdiv, isNaN_of_isFinite ha, isNaN_of_isFinite hb, isInf_of_isFinite ha, isInf_of_isFinite hb,
    h0, Bool.or_self, Bool.false_eq_true, if_false]

theorem fsqrt_positive {a : F32} (ha : isFinite a = true) (hs : signBit a = false) (h0 : isZero a = false) :
    fsqrt a = fsqrtUnits (units a) := by
  simp only [fsqrt, isNaN_of_isFinite ha, isInf_of_isFinite ha, h0, hs, Bool.false_eq_true, if_false]

theorem fadd_nan {a b : F32} (h : isNaN a = true ∨ isNaN b = true) : fadd a b = canonicalNaN := by
  rcases h with h | h <;> simp [fadd, h]

theorem fmul_nan {a b : F32} (h : isNaN a = true ∨ isNaN b = true) : fmul a b = canonicalNaN := by
  rcases h with h | h <;> simp [fmul, h]

theorem isNaN_canonicalNaN : isNaN canonicalNaN = true := by decide

theorem rndAway_finite {r : F32} (h : isFinite r = true) : rndAway r =
    roundF32 (signBit r) ((2 * units r + 2 ^ 149) / 2 ^ 150 * 2 ^ 149) 1 := by
  simp only [rndAway, isNaN_of_isFinite h, isInf_of_isFinite h, Bool.false_eq_true, if_false]

theorem f2uSat_nan {r : F32} (h : isNaN r = true) : f2uSat r = 0 := by
  simp [f2uSat, h]

theorem f2uSat_signBit {r : F32} (h : signBit r = true) : f2uSat r = 0 := by
  simp [f2uSat, h]

end Sys2Proof.Laws
end

