-- ==== Sys2Proof/Laws/Codec.lean ====
section
/-! SUPPORT. What the word's fields, the serialisation and the two functions of the hardware can do. Rewrite
with these; a defeq check that unfolds an operation on a datum that is not a numeral can run into 2^149. -/

namespace Sys2Proof.Laws

open Sys2Proof Sys2Proof.Machine

/-! ### The word -/

@[simp] theorem fieldX_composeWord (ux : BitVec 32) (uy : BitVec 16) (s : Bool) :
    fieldX (composeWord ux uy s) = ux.extractLsb' 0 16 := by
  apply BitVec.eq_of_getLsbD_eq
  intro i hi
  simp only [fieldX, composeWord, BitVec.getLsbD_extractLsb', BitVec.getLsbD_append]
  simp [hi, show ¬ 16 + i < 1 from by omega]

@[simp] theorem fieldY_composeWord (ux : BitVec 32) (uy : BitVec 16) (s : Bool) :
    fieldY (composeWord ux uy s) = uy.extractLsb' 0 15 := by
  apply BitVec.eq_of_getLsbD_eq
  intro i hi
  simp only [fieldY, composeWord, BitVec.getLsbD_extractLsb', BitVec.getLsbD_append]
  simp [hi]

@[simp] theorem fieldS_composeWord (ux : BitVec 32) (uy : BitVec 16) (s : Bool) :
    fieldS (composeWord ux uy s) = s := by
  simp only [fieldS, composeWord, BitVec.getLsbD_append, Nat.zero_lt_one, if_true]
  cases s <;> rfl

@[simp] theorem fieldX_packWord (v : Vec3) : fieldX (packWord v) = (q16 (unorm v.x)).extractLsb' 0 16 :=
  fieldX_composeWord _ _ _

@[simp] theorem fieldY_packWord (v : Vec3) : fieldY (packWord v) = (q15 (unorm v.y)).extractLsb' 0 15 :=
  fieldY_composeWord _ _ _

@[simp] theorem fieldS_packWord (v : Vec3) : fieldS (packWord v) = zSignFlag v.z :=
  fieldS_composeWord _ _ _

/-! ### UNPACK's result -/

@[simp] theorem unpackWord_x (p : RadicandPolicy) (w : Word) : (unpackWord p w).x = decodeX (fieldX w) := rfl

@[simp] theorem unpackWord_y (p : RadicandPolicy) (w : Word) : (unpackWord p w).y = decodeY (fieldY w) := rfl

@[simp] theorem unpackWord_z (p : RadicandPolicy) (w : Word) : (unpackWord p w).z =
    signedRoot (guardRadicand p (radicand (decodeX (fieldX w)) (decodeY (fieldY w)))) (fieldS w) := rfl

@[simp] theorem unpackWord_derr (p : RadicandPolicy) (w : Word) : (unpackWord p w).derr =
    domainErrorFlag (radicand (decodeX (fieldX w)) (decodeY (fieldY w))) := rfl

/-- A radicand that is not negative is the one the root is taken of, under both policies. -/
theorem guardRadicand_of_not_error {rad : F32} (p : RadicandPolicy) (h : domainErrorFlag rad = false) :
    guardRadicand p rad = rad := by
  cases p <;> simp [guardRadicand, h]

/-! ### Serialisation -/

@[simp] theorem bytesOfWord_length (w : Word) : (bytesOfWord w).length = 4 := rfl

@[simp] theorem wordOfBytes_slices (w : Word) :
    wordOfBytes (w.extractLsb' 24 8) (w.extractLsb' 16 8) (w.extractLsb' 8 8) (w.extractLsb' 0 8) = w := by
  apply BitVec.eq_of_getLsbD_eq
  intro i hi
  simp only [wordOfBytes, BitVec.getLsbD_append, BitVec.getLsbD_extractLsb']
  have h : i < 8 ∨ (8 ≤ i ∧ i < 16) ∨ (16 ≤ i ∧ i < 24) ∨ (24 ≤ i ∧ i < 32) := by omega
  rcases h with h | h | h | h
  · simp [h]
  · simp [show ¬ i < 8 from by omega, show i - 8 < 8 from by omega, show 8 + (i - 8) = i from by omega]
  · simp [show ¬ i < 8 from by omega, show ¬ i - 8 < 8 from by omega, show i - 8 - 8 < 8 from by omega,
      show 16 + (i - 8 - 8) = i from by omega]
  · simp [show ¬ i < 8 from by omega, show ¬ i - 8 < 8 from by omega, show ¬ i - 8 - 8 < 8 from by omega,
      show i - 8 - 8 - 8 < 8 from by omega, show 24 + (i - 8 - 8 - 8) = i from by omega]

/-- An operand's bytes are read back at its port. -/
theorem operandOfBytes_bytes (o : Operand) : operandOfBytes o.port o.bytes = .ok o := by
  cases o <;> simp [Operand.port, Operand.bytes, bytesOfWord, operandOfBytes]

/-- What the decoder reads from an operand's bytes is what the operand selects. -/
theorem decode_bytes (o : Operand) : decode o.port o.bytes = .ok (decodeOperand o) := by
  simp [decode, operandOfBytes_bytes, Except.map]

end Sys2Proof.Laws
end

