-- ==== Sys2Proof/Laws/State.lean ====
section
/-! SUPPORT. One lemma for each field of State under each update, so that no later proof unfolds a record
update. -/

namespace Sys2Proof.Laws

open Sys2Proof Sys2Proof.Machine

variable (s : State)

/-! ### `State.encCycle` -/

@[simp] theorem encCycle_config (i : EncIn) : (s.encCycle i).config = s.config := rfl
@[simp] theorem encCycle_dec (i : EncIn) : (s.encCycle i).dec = s.dec := rfl
@[simp] theorem encCycle_schedule (i : EncIn) : (s.encCycle i).schedule = s.schedule := rfl
@[simp] theorem encCycle_decLog (i : EncIn) : (s.encCycle i).decLog = s.decLog := rfl
@[simp] theorem encCycle_probe (i : EncIn) : (s.encCycle i).probe = s.probe := rfl
@[simp] theorem encCycle_queue (i : EncIn) : (s.encCycle i).enc.queue =
    (clockQueue s.config.encLatency i.rst i.offered s.enc.queue).2 := rfl
@[simp] theorem encCycle_out (i : EncIn) : (s.encCycle i).enc.out =
    (clockQueue s.config.encLatency i.rst i.offered s.enc.queue).1.map packWord := rfl
@[simp] theorem encCycle_cycle (i : EncIn) : (s.encCycle i).enc.cycle = s.enc.cycle + 1 := rfl
@[simp] theorem encCycle_encLog (i : EncIn) : (s.encCycle i).encLog =
    s.encLog ++ ((s.encCycle i).enc.out.map fun w => (s.enc.cycle, w)).toList := rfl

/-! ### `State.decCycle` -/

@[simp] theorem decCycle_config (i : DecIn) : (s.decCycle i).config = s.config := rfl
@[simp] theorem decCycle_enc (i : DecIn) : (s.decCycle i).enc = s.enc := rfl
@[simp] theorem decCycle_schedule (i : DecIn) : (s.decCycle i).schedule = s.schedule := rfl
@[simp] theorem decCycle_encLog (i : DecIn) : (s.decCycle i).encLog = s.encLog := rfl
@[simp] theorem decCycle_probe (i : DecIn) : (s.decCycle i).probe = s.probe := rfl
@[simp] theorem decCycle_queue (i : DecIn) : (s.decCycle i).dec.queue =
    (clockQueue s.config.decLatency i.rst i.offered s.dec.queue).2 := rfl
@[simp] theorem decCycle_out (i : DecIn) : (s.decCycle i).dec.out =
    (clockQueue s.config.decLatency i.rst i.offered s.dec.queue).1.map
      (unpackWord s.config.radicandPolicy) := rfl
@[simp] theorem decCycle_cycle (i : DecIn) : (s.decCycle i).dec.cycle = s.dec.cycle + 1 := rfl
@[simp] theorem decCycle_decLog (i : DecIn) : (s.decCycle i).decLog =
    s.decLog ++ ((s.decCycle i).dec.out.map fun r => (s.dec.cycle, r)).toList := rfl

/-! ### `State.withProbe` -/

@[simp] theorem withProbe_config (v : PrimValue) : (s.withProbe v).config = s.config := rfl
@[simp] theorem withProbe_enc (v : PrimValue) : (s.withProbe v).enc = s.enc := rfl
@[simp] theorem withProbe_dec (v : PrimValue) : (s.withProbe v).dec = s.dec := rfl
@[simp] theorem withProbe_schedule (v : PrimValue) : (s.withProbe v).schedule = s.schedule := rfl
@[simp] theorem withProbe_encLog (v : PrimValue) : (s.withProbe v).encLog = s.encLog := rfl
@[simp] theorem withProbe_decLog (v : PrimValue) : (s.withProbe v).decLog = s.decLog := rfl
@[simp] theorem withProbe_probe (v : PrimValue) : (s.withProbe v).probe = some v := rfl

/-! ### `State.presentNext` -/

@[simp] theorem presentNext_config (o : Operand) : (s.presentNext o).config = s.config := rfl
@[simp] theorem presentNext_enc (o : Operand) : (s.presentNext o).enc = s.enc := rfl
@[simp] theorem presentNext_dec (o : Operand) : (s.presentNext o).dec = s.dec := rfl
@[simp] theorem presentNext_schedule (o : Operand) :
    (s.presentNext o).schedule = presentEvent o :: s.schedule := rfl
@[simp] theorem presentNext_encLog (o : Operand) : (s.presentNext o).encLog = s.encLog := rfl
@[simp] theorem presentNext_decLog (o : Operand) : (s.presentNext o).decLog = s.decLog := rfl
@[simp] theorem presentNext_probe (o : Operand) : (s.presentNext o).probe = s.probe := rfl

/-! ### `State.resetWith` -/

variable (c : Config)

@[simp] theorem resetWith_config : (State.resetWith c).config = c := rfl
@[simp] theorem resetWith_encQueue :
    (State.resetWith c).enc.queue = List.replicate c.encLatency none := rfl
@[simp] theorem resetWith_decQueue :
    (State.resetWith c).dec.queue = List.replicate c.decLatency none := rfl
@[simp] theorem resetWith_encOut : (State.resetWith c).enc.out = none := rfl
@[simp] theorem resetWith_decOut : (State.resetWith c).dec.out = none := rfl
@[simp] theorem resetWith_schedule : (State.resetWith c).schedule = [] := rfl
@[simp] theorem resetWith_encLog : (State.resetWith c).encLog = [] := rfl
@[simp] theorem resetWith_decLog : (State.resetWith c).decLog = [] := rfl
@[simp] theorem resetWith_probe : (State.resetWith c).probe = none := rfl

end Sys2Proof.Laws
end

