-- ==== Sys2Proof/Laws/Ops.lean ====
section
/-! SUPPORT. What each shared operation can do, said once: the queues, one clock cycle of a unit, one step, and
a run over a schedule. -/

namespace Sys2Proof.Laws

open Sys2Proof Sys2Proof.Machine

/-! ### The queues -/

/-- The whole of `shiftQueue`: the front of the queue with the entering entry behind it, and the rest. -/
theorem shiftQueue_eq {α : Type} (q : List (Option α)) (e : Option α) :
    shiftQueue q e = ((q ++ [e]).head?.join, (q ++ [e]).tail) := by
  cases q <;> simp [shiftQueue]

/-- Outside a reset edge a clock cycle shifts the queue. -/
theorem clockQueue_run {α : Type} (l : Nat) (o : Option α) (q : List (Option α)) :
    clockQueue l false o q = ((q ++ [o]).head?.join, (q ++ [o]).tail) := by
  simp [clockQueue, shiftQueue_eq]

/-- At a reset edge the queue is emptied, whatever was offered. -/
theorem clockQueue_reset {α : Type} (l : Nat) (o : Option α) (q : List (Option α)) :
    clockQueue l true o q = (q.head?.join, List.replicate l none) := by
  cases q <;> simp [clockQueue, shiftQueue_eq]

/-- A clock cycle keeps a queue at the unit's latency. -/
theorem clockQueue_length {α : Type} {l : Nat} {q : List (Option α)} (h : q.length = l) (r : Bool)
    (o : Option α) : (clockQueue l r o q).2.length = l := by
  cases r <;> simp [clockQueue_run, clockQueue_reset, h]

/-- An empty queue that is offered nothing stays empty and gives nothing, reset or not. -/
theorem clockQueue_empty {α : Type} (l : Nat) (r : Bool) (o : Option α) (h : r = true ∨ o = none) :
    clockQueue l r o (List.replicate l none) = (none, List.replicate l none) := by
  have key : ((List.replicate l (none : Option α)) ++ [none]) = none :: List.replicate l none := by
    rw [← List.replicate_succ', List.replicate_succ]
  cases r
  · obtain rfl : o = none := by simpa using h
    rw [clockQueue_run, key]; simp
  · rw [clockQueue_reset]; cases l <;> simp [List.replicate_succ]

/-! ### The results in flight -/

/-- Empty entries behind an encoder queue add no result. -/
theorem encInFlightDue_append_none (t k : Nat) (q : List (Option Vec3)) :
    encInFlightDue t (q ++ List.replicate k none) = encInFlightDue t q := by
  induction q generalizing t with
  | nil =>
    induction k generalizing t with
    | zero => rfl
    | succ k ih => simpa [List.replicate_succ, encInFlightDue] using ih (t + 1)
  | cons v q ih => simp [encInFlightDue, ih]

/-- Empty entries behind a decoder queue add no result. -/
theorem decInFlightDue_append_none (p : RadicandPolicy) (t k : Nat) (q : List (Option Word)) :
    decInFlightDue p t (q ++ List.replicate k none) = decInFlightDue p t q := by
  induction q generalizing t with
  | nil =>
    induction k generalizing t with
    | zero => rfl
    | succ k ih => simpa [List.replicate_succ, decInFlightDue] using ih (t + 1)
  | cons w q ih => simp [decInFlightDue, ih]

/-! ### The inputs -/

@[simp] theorem offer_rst (x y z : F32) : (EncIn.offer x y z).rst = false := rfl
@[simp] theorem offer_offered (x y z : F32) : (EncIn.offer x y z).offered = some ⟨x, y, z⟩ := rfl
@[simp] theorem offerWord_rst (w : Word) : (DecIn.offer w).rst = false := rfl
@[simp] theorem offerWord_offered (w : Word) : (DecIn.offer w).offered = some w := rfl
@[simp] theorem encIdle_rst : EncIn.idle.rst = false := rfl
@[simp] theorem encIdle_offered : EncIn.idle.offered = none := rfl
@[simp] theorem decIdle_rst : DecIn.idle.rst = false := rfl
@[simp] theorem decIdle_offered : DecIn.idle.offered = none := rfl

theorem encOffered_none {i : EncIn} (h : i.valid = false) : i.offered = none := by simp [EncIn.offered, h]
theorem decOffered_none {i : DecIn} (h : i.valid = false) : i.offered = none := by simp [DecIn.offered, h]

/-- Decoder inputs begin nothing when `valid` is 0 or the edge is a reset edge. -/
theorem decBegins_isNone (i : DecIn) : i.begins.isNone = true ↔ i.valid = false ∨ i.rst = true := by
  obtain ⟨r, v, w⟩ := i
  cases r <;> cases v <;> simp [DecIn.begins]

/-- An event that is a decoder cycle, wired or not, clocks the decoder with its inputs. -/
theorem clock_decCycle {s : State} {e : Event} {i : DecIn} (h : s.decCycleInputs e = some i) :
    s.clock e = s.decCycle i := by
  cases e <;> simp_all [State.decCycleInputs, State.clock]

/-- The inputs of a decoder cycle do not depend on what is scheduled. -/
@[simp] theorem decCycleInputs_schedule (s : State) (es : List Event) (e : Event) :
    ({ s with schedule := es } : State).decCycleInputs e = s.decCycleInputs e := by
  cases e <;> rfl

/-! ### The output ports

For any result, so that a proof cites these and no goal about an UNPACK result has to be unfolded. -/

/-- What the encoder's ports show when it presents a word. -/
theorem encPorts_some {s : State} {w : Word} (h : s.enc.out = some w) :
    s.encValidO = true ∧ s.encWordO = w := by
  simp [State.encValidO, State.encWordO, h]

/-- Without a result `enc_valid_o` is 0. -/
theorem encPorts_none {s : State} (h : s.enc.out = none) : s.encValidO = false := by
  simp [State.encValidO, h]

/-- What the decoder's ports show when it presents a result. -/
theorem decPorts_some {s : State} {r : DecResult} (h : s.dec.out = some r) :
    s.decValidO = true ∧ s.decXO = r.x ∧ s.decYO = r.y ∧ s.decZO = r.z ∧ s.decDerrO = r.derr := by
  simp [State.decValidO, State.decXO, State.decYO, State.decZO, State.decDerrO, h]

/-- Without a result `dec_valid_o` and `dec_derr_o` are 0. -/
theorem decPorts_none {s : State} (h : s.dec.out = none) : s.decValidO = false ∧ s.decDerrO = false := by
  simp [State.decValidO, State.decDerrO, h]

/-! ### exec and step -/

/-- Every instruction answers a next state. -/
theorem exec_next (i : Instr) (s : State) : ∃ t, exec i s = .next t := by
  cases i <;> exact ⟨_, rfl⟩

/-- Inputs that begin a PACK are those of `EncIn.offer`. -/
theorem encBegins_some {i : EncIn} {o : Operand} (h : i.begins = some o) :
    i = .offer i.x i.y i.z ∧ o = .atEncoder i.x i.y i.z := by
  obtain ⟨r, v, x, y, z⟩ := i
  cases r <;> cases v <;> simp_all [EncIn.begins, EncIn.offer]

/-- Inputs that begin an UNPACK are those of `DecIn.offer`. -/
theorem decBegins_some {i : DecIn} {o : Operand} (h : i.begins = some o) :
    i = .offer i.word ∧ o = .atDecoder i.word := by
  obtain ⟨r, v, w⟩ := i
  cases r <;> cases v <;> simp_all [DecIn.begins, DecIn.offer]

/-- Whether an event begins an operation or not, its step is the clock cycle of its unit. -/
theorem step_cons {s : State} {e : Event} {rest : List Event} (h : s.schedule = e :: rest) :
    step s = .next (({ s with schedule := rest } : State).clock e) := by
  simp only [step, State.nextEvent, h, State.begun]
  cases ho : ({ s with schedule := rest } : State).presented e with
  | none => rfl
  | some o =>
    cases e with
    | enc i =>
      obtain ⟨hi, rfl⟩ := encBegins_some ho
      show _ = Host.Outcome.next (State.encCycle _ i)
      rw [hi]; rfl
    | dec i =>
      obtain ⟨hi, rfl⟩ := decBegins_some ho
      show _ = Host.Outcome.next (State.decCycle _ i)
      rw [hi]; rfl
    | decWired r =>
      obtain ⟨hi, rfl⟩ := decBegins_some ho
      show _ = Host.Outcome.next (State.decCycle _ (State.wiredIn _ r))
      rw [hi]; rfl

/-- A step on a decoder event, wired or not, is one decoder cycle with the event's inputs. -/
theorem step_dec {s : State} {e : Event} {rest : List Event} {i : DecIn} (h : s.schedule = e :: rest)
    (hi : s.decCycleInputs e = some i) :
    step s = .next (({ s with schedule := rest } : State).decCycle i) := by
  rw [step_cons h, clock_decCycle ((decCycleInputs_schedule s rest e).trans hi)]

/-- With nothing scheduled a step idles both units. -/
theorem step_nil {s : State} (h : s.schedule = []) : step s = .next s.idleCycle := by
  simp [step, State.nextEvent, h]

/-- What a step can do: clock the unit of the next event, or idle both units. -/
theorem step_cases {s t : State} (h : step s = .next t) :
    (∃ e rest, s.schedule = e :: rest ∧ t = ({ s with schedule := rest } : State).clock e) ∨
      (s.schedule = [] ∧ t = s.idleCycle) := by
  cases hs : s.schedule with
  | nil => rw [step_nil hs] at h; exact .inr ⟨rfl, by simpa using h.symm⟩
  | cons e rest => rw [step_cons hs] at h; exact .inl ⟨e, rest, rfl, by simpa using h.symm⟩

/-! ### Runs -/

/-- The state after the events of a schedule, one clock cycle each. -/
def clockAll : List Event → State → State
  | [], s => s
  | e :: es, s => clockAll es (s.clock e)

/-- Clocking an event leaves the schedule alone. -/
@[simp] theorem clock_schedule (s : State) (e : Event) : (s.clock e).schedule = s.schedule := by
  cases e <;> rfl

/-- A run over the first events of a schedule clocks them one after the other. -/
theorem run_schedule (es : List Event) (rest : List Event) (s : State) (h : s.schedule = es ++ rest) :
    RunsTo es.length s (clockAll es { s with schedule := rest }) := by
  induction es generalizing s with
  | nil =>
    obtain ⟨c, e, d, sch, el, dl, p⟩ := s
    simp only [List.nil_append] at h
    subst h
    rfl
  | cons e es ih =>
    have hs := step_cons (s := s) (e := e) (rest := es ++ rest) (by simpa using h)
    have := ih (({ s with schedule := es ++ rest } : State).clock e) (by simp)
    simp only [RunsTo, List.length_cons, Host.Core.run, clockAll] at this ⊢
    rw [show Sys2Proof.core.step s = step s from rfl, hs]
    simp only
    rw [this]
    cases e <;> rfl

theorem clockAll_append (es es' : List Event) (s : State) :
    clockAll (es ++ es') s = clockAll es' (clockAll es s) := by
  induction es generalizing s with
  | nil => rfl
  | cons e es ih => exact ih _

theorem encInputs_append (es es' : List Event) : encInputs (es ++ es') = encInputs es ++ encInputs es' := by
  induction es with
  | nil => rfl
  | cons e es ih => cases e <;> simp [encInputs, ih]

theorem decInputs_append (es es' : List Event) : decInputs (es ++ es') = decInputs es ++ decInputs es' := by
  induction es with
  | nil => rfl
  | cons e es ih => cases e <;> simp [decInputs, ih]

/-- The encoder's part of a run is the fold of its own inputs. -/
theorem clockAll_enc (es : List Event) (s : State) :
    (clockAll es s).config = s.config ∧ (clockAll es s).schedule = s.schedule ∧
    (clockAll es s).probe = s.probe ∧
    (clockAll es s).enc = ((encInputs es).foldl State.encCycle s).enc ∧
    (clockAll es s).encLog = ((encInputs es).foldl State.encCycle s).encLog := by
  induction es generalizing s with
  | nil => simp [clockAll, encInputs]
  | cons e es ih =>
    have congr : ∀ (is : List EncIn) (a b : State), a.config = b.config → a.enc = b.enc →
        a.encLog = b.encLog → (is.foldl State.encCycle a).enc = (is.foldl State.encCycle b).enc ∧
          (is.foldl State.encCycle a).encLog = (is.foldl State.encCycle b).encLog := by
      intro is
      induction is with
      | nil => intro a b _ h2 h3; exact ⟨h2, h3⟩
      | cons i is ih =>
        intro a b h1 h2 h3
        exact ih _ _ (by simpa using h1) (by simp only [State.encCycle, h1, h2])
          (by simp only [State.encCycle, h1, h2, h3])
    obtain ⟨h1, h2, h3, h4, h5⟩ := ih (s.clock e)
    cases e with
    | enc i => exact ⟨h1, h2, h3, h4, h5⟩
    | dec i =>
      have := congr (encInputs es) (s.decCycle i) s rfl rfl rfl
      exact ⟨h1, h2, h3, h4.trans this.1, h5.trans this.2⟩
    | decWired r =>
      have := congr (encInputs es) (s.decCycle (s.wiredIn r)) s rfl rfl rfl
      exact ⟨h1, h2, h3, h4.trans this.1, h5.trans this.2⟩

/-- The decoder's part of a run without wired cycles is the fold of its own inputs. -/
theorem clockAll_dec (es : List Event) (s : State) (hw : unwired es = true) :
    (clockAll es s).dec = ((decInputs es).foldl State.decCycle s).dec ∧
    (clockAll es s).decLog = ((decInputs es).foldl State.decCycle s).decLog := by
  induction es generalizing s with
  | nil => simp [clockAll, decInputs]
  | cons e es ih =>
    have congr : ∀ (is : List DecIn) (a b : State), a.config = b.config → a.dec = b.dec →
        a.decLog = b.decLog → (is.foldl State.decCycle a).dec = (is.foldl State.decCycle b).dec ∧
          (is.foldl State.decCycle a).decLog = (is.foldl State.decCycle b).decLog := by
      intro is
      induction is with
      | nil => intro a b _ h2 h3; exact ⟨h2, h3⟩
      | cons i is ih =>
        intro a b h1 h2 h3
        exact ih _ _ (by simpa using h1) (by simp only [State.decCycle, h1, h2])
          (by simp only [State.decCycle, h1, h2, h3])
    cases e with
    | enc i =>
      obtain ⟨h4, h5⟩ := ih (s.encCycle i) hw
      have := congr (decInputs es) (s.encCycle i) s rfl rfl rfl
      exact ⟨h4.trans this.1, h5.trans this.2⟩
    | dec i => exact ih (s.decCycle i) hw
    | decWired r => simp [unwired] at hw

end Sys2Proof.Laws
end

