-- ==== Sys2Proof/Laws/PerInstr.lean ====
section
/-! SUPPORT. The statement made for every instruction: it has an encoding exactly when a port can be presented
with it, and that encoding has the width of its port (20_memory.md R43; spec/opcode_table.json). -/

namespace Sys2Proof.Laws

open Sys2Proof

/-- How many bytes a port's operand serialises to. -/
def portBytes : OperandPort → Nat
  | .encoder => 12
  | .decoder => 4

/-- Encodable exactly when well formed, with the bytes of the port. -/
def EncodingFitsPort.Statement (i : Instr) : Prop :=
  ((encode i).isSome = i.wellFormed) ∧ ∀ p bytes, encode i = some (p, bytes) → bytes.length = portBytes p

theorem EncodingFitsPort.pack (x y z : F32) : EncodingFitsPort.Statement (.pack x y z) := by
  refine ⟨rfl, ?_⟩
  rintro p bytes h
  simp only [encode, Instr.operand?, Option.map_some, Option.some.injEq, Prod.mk.injEq] at h
  obtain ⟨rfl, rfl⟩ := h
  rfl

theorem EncodingFitsPort.unpack (w : Word) : EncodingFitsPort.Statement (.unpack w) := by
  refine ⟨rfl, ?_⟩
  rintro p bytes h
  simp only [encode, Instr.operand?, Option.map_some, Option.some.injEq, Prod.mk.injEq] at h
  obtain ⟨rfl, rfl⟩ := h
  rfl

theorem EncodingFitsPort.unorm (x : F32) : EncodingFitsPort.Statement (.unorm x) :=
  ⟨rfl, fun _ _ h => by simp [encode, Instr.operand?] at h⟩

theorem EncodingFitsPort.q15 (f : F32) : EncodingFitsPort.Statement (.q15 f) :=
  ⟨rfl, fun _ _ h => by simp [encode, Instr.operand?] at h⟩

theorem EncodingFitsPort.q16 (f : F32) : EncodingFitsPort.Statement (.q16 f) :=
  ⟨rfl, fun _ _ h => by simp [encode, Instr.operand?] at h⟩

theorem EncodingFitsPort.snorm (q : F32) : EncodingFitsPort.Statement (.snorm q) :=
  ⟨rfl, fun _ _ h => by simp [encode, Instr.operand?] at h⟩

end Sys2Proof.Laws
end

