-- ==== Sys2Proof/Tests/Slice0.lean ====
section
/-! SUPPORT. Tests. Expected values are those of spec/95_test_vectors.md (V-…) unless said otherwise; the
witnesses show that the hypotheses of each statement can be met. -/

namespace Sys2Proof.Tests

open Sys2Proof Sys2Proof.Machine

/-! ### Well-formedness and decoding -/

/-- The check refuses what no port can be presented with (00_scope.md R2). -/
theorem test_illFormed_refused :
    (Instr.unorm 0).wellFormed = false ∧ (Instr.q15 0).wellFormed = false ∧
    (Instr.q16 0).wellFormed = false ∧ (Instr.snorm 0).wellFormed = false ∧
    (Instr.pack 0 0 0).wellFormed = true ∧ (Instr.unpack 0).wellFormed = true := by decide

/-- x in 95:64, y in 63:32, z in 31:0; and the 12 bytes with x first (30_encoding.md R61, 20_memory.md R40). -/
theorem test_pack_decodes :
    decodeTableWord 96 0x123456789ABCDEF00F1E2D3C = some (.pack 0x12345678 0x9ABCDEF0 0x0F1E2D3C) ∧
    decode .encoder [0x12, 0x34, 0x56, 0x78, 0x9A, 0xBC, 0xDE, 0xF0, 0x0F, 0x1E, 0x2D, 0x3C] =
      .ok (.pack 0x12345678 0x9ABCDEF0 0x0F1E2D3C) := by decide

/-- The word is bits 31:0, its bytes most significant first (30_encoding.md R60, 20_memory.md R40). -/
theorem test_unpack_decodes :
    decodeTableWord 32 0x12345678 = some (.unpack 0x12345678) ∧
    decode .decoder [0x12, 0x34, 0x56, 0x78] = .ok (.unpack 0x12345678) := by decide

/-- No primitive has an encoding, and a wrong number of bytes is rejected by name. -/
theorem test_no_encoding :
    encode (.unorm 0) = none ∧ encode (.q15 0) = none ∧ encode (.q16 0) = none ∧
    encode (.snorm 0) = none ∧ decode .decoder [0, 0, 0] = .error (.byteCount .decoder 3) := by decide

/-! ### One step each -/

/-- V-PK9 as the first instruction after reset, latency 0. -/
theorem test_pack_step : ∃ t, step (State.reset.withFetchWord 96 0x3F19999A00000000BF4CCCCD) = .next t ∧
    t.encValidO = true ∧ t.encWordO = 0xCCCC8001 :=
  ⟨_, rfl, rfl, by decide +kernel⟩

/-- V-PK7, V-PK12, V-PK16, V-PK18, V-PK21, V-PK26, V-PK28, V-PK31, V-PK33, V-PK36. -/
theorem test_pack_vectors :
    [Transaction.pack ⟨0x3F3504F3, 0x3F3504F3, 0x00000000⟩ 0xDA82DA80,
     .pack ⟨0xBE924925, 0x3EDB6DB7, 0xBF5B6DB7⟩ 0x5B6DB6DB,
     .pack ⟨0x3F7FFF00, 0x00000000, 0x00000000⟩ 0xFFFF8000,
     .pack ⟨0x3F800000, 0x00000000, 0x80000001⟩ 0xFFFF8001,
     .pack ⟨0x3F800000, 0x00000000, 0xFFC00000⟩ 0xFFFF8000,
     .pack ⟨0x00000000, 0x40000000, 0x00000000⟩ 0x80007FFE,
     .pack ⟨0x00000000, 0x40800000, 0x00000000⟩ 0x80007FFC,
     .pack ⟨0x3F800080, 0x00000000, 0x00000000⟩ 0x00008000,
     .pack ⟨0x00000000, 0x3F800100, 0x00000000⟩ 0x80000000,
     .pack ⟨0x7F800000, 0x7F800000, 0x7F800000⟩ 0xFFFFFFFE].all (·.holds .clamp) = true := by
  decide +kernel

/-- V-UP14 as the first instruction after reset, latency 0. -/
theorem test_unpack_step : ∃ t, step (State.reset.withFetchWord 32 0xDEADBEEF) = .next t ∧
    t.decValidO = true ∧ t.decXO = 0x3F3D5BBE ∧ t.decYO = 0x3EFBBDF8 ∧ t.decZO = 0xBEEB408D ∧
    t.decDerrO = false :=
  ⟨_, rfl, rfl, by decide +kernel, by decide +kernel, by decide +kernel, by decide +kernel⟩

/-- V-UP7, V-UP13, V-UP16, V-UP19, V-UP21, V-UP22, V-UP26. -/
theorem test_unpack_vectors :
    [Transaction.unpack 0xDA82DA80 ⟨0x3F3505B6, 0x3F35036A, 0x3B861ABC, false⟩,
     .unpack 0x12345678 ⟨0xBF5B97DC, 0xBEA61D4C, 0x3ECC1EEF, false⟩,
     .unpack 0x40004001 ⟨0xBEFFFF00, 0xBEFFFE00, 0xBF350603, false⟩,
     .unpack 0xFFFF8001 ⟨0x3F800000, 0x38000000, 0x80000000, false⟩,
     .unpack 0xC528EBB4 ⟨0x3F0A518A, 0x3F576BAE, 0x00000000, true⟩,
     .unpack 0xC528EBB5 ⟨0x3F0A518A, 0x3F576BAE, 0x80000000, true⟩,
     .unpack 0xFFFFFFFF ⟨0x3F800000, 0x3F800000, 0x80000000, true⟩].all (·.holds .clamp) = true := by
  decide +kernel

/-- V-UN9, V-UN11, V-UN13, V-UN14, V-UN16 (40_primitives.md R95). -/
theorem test_unorm_vectors : ∃ t, exec (.unorm 0x3F3504F3) .reset = .next t ∧
    t.probe = some (.unorm 0x3F5A827A) ∧ unorm 0xBF7FFFFF = 0x33000000 ∧ unorm 0xC0400000 = 0xBF800000 ∧
    unorm 0x7F7FFFFF = 0x7EFFFFFF ∧ unorm 0xFF800000 = 0xFF800000 :=
  ⟨_, rfl, by decide +kernel, by decide +kernel, by decide +kernel, by decide +kernel, by decide +kernel⟩

/-- V-QY5, V-QY6, V-QY8, V-QY12, V-QY14, V-QY17 (40_primitives.md R96). -/
theorem test_q15_vectors : ∃ t, exec (.q15 0x3F666666) .reset = .next t ∧
    t.probe = some (.q15 0x7332) ∧ q15 0x3F7FFF00 = 0x7FFF ∧ q15 0x37800100 = 0x0001 ∧
    q15 0x3FC00000 = 0xBFFF ∧ q15 0x40200000 = 0x3FFE ∧ q15 0x7F800000 = 0xFFFF :=
  ⟨_, rfl, by decide +kernel, by decide +kernel, by decide +kernel, by decide +kernel, by decide +kernel,
    by decide +kernel⟩

/-- V-QX3, V-QX6, V-QX9, V-QX13, V-QX18, V-QX23 (40_primitives.md R97). -/
theorem test_q16_vectors : ∃ t, exec (.q16 0x3F000000) .reset = .next t ∧
    t.probe = some (.q16 0x8000) ∧ q16 0x3F7FFF80 = 0xFFFF ∧ q16 0x382000A0 = 3 ∧
    q16 0x3F800040 = 0x00010000 ∧ q16 0x47800000 = 0xFFFF0000 ∧ q16 0x7FC00000 = 0 :=
  ⟨_, rfl, by decide +kernel, by decide +kernel, by decide +kernel, by decide +kernel, by decide +kernel,
    by decide +kernel⟩

/-- V-SN6, V-SN2, V-SN8, V-SN11 (40_primitives.md R98). -/
theorem test_snorm_vectors : ∃ t, exec (.snorm 0x3F000080) .reset = .next t ∧
    t.probe = some (.snorm 0x37800000) ∧ snorm 0x3F000000 = 0x00000000 ∧ snorm 0x3F5A82DB = 0x3F3505B6 ∧
    snorm 0x7F7FFFFF = 0x7F800000 :=
  ⟨_, rfl, by decide +kernel, by decide +kernel, by decide +kernel, by decide +kernel⟩

/-- With latency 2 the operand offered three cycles ago is not yet out, and the one two cycles ago is: the cycle
of program P6 (95_test_vectors.md) that presents V-PK1's word. -/
theorem test_latency_two_step :
    let s := { State.resetWith ⟨2, 3, .clamp⟩ with
      enc := ⟨[some ⟨0x3F800000, 0, 0⟩, some ⟨0xBEDEDCCA, 0xBF6679CC, 0⟩], none, 2⟩
      schedule := [.enc .idle] }
    ∃ t, step s = .next t ∧ t.encLog = [(2, 0xFFFF8000)] ∧
      t.enc.queue = [some ⟨0xBEDEDCCA, 0xBF6679CC, 0⟩, none] :=
  ⟨_, rfl, by decide +kernel, rfl⟩

/-- The reset edge of P6's cycle 7 drops the transaction in the decoder (95_test_vectors.md P6). -/
theorem test_reset_edge_drops :
    let s := { State.resetWith ⟨2, 3, .clamp⟩ with
      dec := ⟨[none, some 0xC528EBB4, none], none, 7⟩
      schedule := [.dec { rst := true, valid := true, word := 0 }] }
    ∃ t, step s = .next t ∧ t.decValidO = false ∧ t.dec.queue = [none, none, none] :=
  ⟨_, rfl, rfl, rfl⟩

/-- The text of a line of the transaction notation (30_encoding.md R68), program P1's first. -/
theorem test_transaction_text :
    (Transaction.pack ⟨0x3F800000, 0x00000000, 0x00000000⟩ 0xFFFF8000).text =
      "PACK 0x3F800000, 0x00000000, 0x00000000 -> 0xFFFF8000" := by decide +kernel

/-! ### Witnesses: encoding -/

theorem witness_DecodeReadsBackEveryEncoding : (Instr.pack 1 2 3).wellFormed = true := by decide

theorem witness_EncodeReadsBackEveryDecoding :
    decode .decoder [0xCC, 0xCC, 0x80, 0x01] = .ok (.unpack 0xCCCC8001) := by decide

theorem witness_EveryOperandPatternIsLegal :
    (List.replicate 12 (0 : Byte)).length = 12 ∧ (List.replicate 4 (0 : Byte)).length = 4 ∧
    (List.replicate 11 (0 : Byte)).length ≠ 12 ∧ (List.replicate 5 (0 : Byte)).length ≠ 4 := by decide

theorem witness_CompositionTruncatesToFields :
    componentInDomain fOne = true ∧ componentInDomain fNegOne = true := by decide

/-! ### Witnesses: arithmetic -/

theorem witness_RoundingIsNearestTiesToEven : 0 < 1 := by decide

/-- One datum for each clause, the last finite one below infinity and both zeros among them. -/
theorem witness_SumIsExactSumRoundedOnce :
    isNaN canonicalNaN = true ∧
    (isInf (infinity true) = true ∧ isInf (infinity false) = true ∧
      signBit (infinity true) ≠ signBit (infinity false)) ∧
    isFinite 0x7F7FFFFF = true ∧
    (isFinite fNegZero = true ∧ signedUnits fNegZero + signedUnits fZero = 0) ∧
    signedUnits 0x7F7FFFFF + signedUnits 0x00000001 ≠ 0 := by decide +kernel

theorem witness_DifferenceIsSumWithFlippedSign :
    isFinite 0x7F7FFFFF = true ∧ isFinite fOne = true ∧ signedUnits 0x7F7FFFFF ≠ signedUnits fOne := by
  decide +kernel

theorem witness_ProductIsExactProductRoundedOnce :
    isNaN canonicalNaN = true ∧ (isZero fNegZero = true ∧ isInf (infinity false) = true) ∧
    (isInf (infinity true) = true ∧ isNaN fOne = false ∧ isZero fOne = false) ∧
    isNaN (fmul fZero fNegOne) = false ∧ isFinite 0x7F7FFFFF = true ∧
    (isFinite 0x01000000 = true ∧ fHalf ∈ [fHalf, fTwo, fOne, fNegOne] ∧
      2 ^ 23 * 2 ^ 149 ≤ units 0x01000000 * units fHalf ∧ isFinite (fmul 0x01000000 fHalf) = true) := by
  decide +kernel

theorem witness_QuotientIsExactQuotientRoundedOnce :
    isFinite fOne = true ∧ isFinite fKX = true ∧ isZero fKX = false := by decide

theorem witness_RootIsExactRootRoundedOnce :
    (isFinite 0x00000001 = true ∧ signBit 0x00000001 = false ∧ isZero 0x00000001 = false) ∧
    (isNaN 0x80000001 = false ∧ isZero 0x80000001 = false ∧ signBit 0x80000001 = true) ∧
    isNaN canonicalNaN = true := by decide

theorem witness_LessThanIsOrderOfValues :
    flt fNegOne fOne = true ∧ isNaN canonicalNaN = true ∧
    (isSubnormal 0x80000001 = true ∧ signBit 0x80000001 = true) := by decide +kernel

theorem witness_IntegerRoundingIsHalfAwayFromZero :
    isFinite 0x3EFFFFFF = true ∧ (isFinite 0x4B000000 = true ∧ 2 ^ 23 ≤ |ratValue 0x4B000000|) ∧
    isInf (infinity true) = true ∧ isNaN canonicalNaN = true := by
  refine ⟨by decide, ⟨by decide, ?_⟩, by decide, by decide⟩
  rw [ratValue, show signedUnits 0x4B000000 = 2 ^ 23 * 2 ^ 149 from by decide +kernel]
  norm_num

theorem witness_IntegerConversionSaturates :
    isNaN canonicalNaN = true ∧
    (isNaN fNegZero = false ∧ signedUnits (rndAway fNegZero) ≤ 0) ∧
    (isNaN 0x4F800000 = false ∧ 2 ^ 32 * 2 ^ 149 ≤ signedUnits (rndAway 0x4F800000)) ∧
    (isNaN 0x4F7FFFFF = false ∧ 0 < signedUnits (rndAway 0x4F7FFFFF) ∧
      signedUnits (rndAway 0x4F7FFFFF) < 2 ^ 32 * 2 ^ 149) ∧
    quantizerInDomain fOne = true := by decide +kernel

/-! ### Witnesses: the mapping primitives -/

theorem witness_TinyInputsNormaliseToHalf : isFinite 0xB2FFFFFF = true ∧ |ratValue 0xB2FFFFFF| < 1 / 2 ^ 25 := by
  refine ⟨by decide, ?_⟩
  rw [ratValue, show signedUnits 0xB2FFFFFF = -(16777215 * 2 ^ 100) from by decide +kernel]
  norm_num [abs_div]

theorem witness_QuantizersSendNegativeAndNaNToZero :
    isNaN canonicalNaN = true ∧ signBit fNegZero = true := by decide

theorem witness_PrimitivesAreMonotoneAndFitInDomain :
    (componentInDomain fNegOne = true ∧ componentInDomain fOne = true ∧
      signedUnits fNegOne ≤ signedUnits fOne) ∧
    (isNaN (infinity true) = false ∧ isNaN (infinity false) = false ∧
      signedUnits (infinity true) ≤ signedUnits (infinity false)) := by decide +kernel

/-! ### Witnesses: PACK and UNPACK -/

/-- A build of encoder latency 1 with a second encoder cycle after the PACK. -/
theorem witness_PackPresentsItsWordAfterLatency :
    let s := { State.resetWith ⟨1, 0, .clamp⟩ with schedule := [.enc (.offer 1 2 3), .enc .idle] }
    s.depthsHold ∧ s.schedule = .enc (.offer 1 2 3) :: ([.enc .idle] ++ []) ∧
    (encInputs [.enc .idle]).length = s.config.encLatency ∧
    (∀ i ∈ encInputs [.enc .idle], i.rst = false) := by decide

theorem witness_SignFlagIsStrictlyNegative : zSignFlag 0xBF800000 = zSignFlag 0x80000001 := by
  decide +kernel

theorem witness_PackLanesAreIndependent : (⟨1, 2, 3⟩ : Vec3).x = (⟨1, 4, 5⟩ : Vec3).x := by decide

theorem witness_PackCornerCases :
    isNaN canonicalNaN = true ∧ (isNaN 0xBF800001 = false ∧ signedUnits 0xBF800001 < signedUnits fNegOne) := by
  decide +kernel

/-- A build of decoder latency 1 with a second decoder cycle after the UNPACK. -/
theorem witness_UnpackPresentsItsVectorAfterLatency :
    let s := { State.resetWith ⟨0, 1, .clamp⟩ with schedule := [.dec (.offer 5), .dec .idle] }
    s.depthsHold ∧ unwired [.dec .idle] = true ∧ s.config.radicandPolicy = .clamp ∧
    s.schedule = .dec (.offer 5) :: ([.dec .idle] ++ []) ∧
    (decInputs [.dec .idle]).length = s.config.decLatency ∧
    (∀ i ∈ decInputs [.dec .idle], i.rst = false) := by decide

theorem witness_DecodedComponentsAreStrictlyIncreasing :
    (65534 : BitVec 16).toNat < (65535 : BitVec 16).toNat ∧ (0 : BitVec 15).toNat < (1 : BitVec 15).toNat := by
  decide

/-- The centre codes, whose sum is small enough for a radicand of exactly 1.0. -/
theorem witness_RadicandIsNegativeExactlyOutsideDisk :
    ∃ sx sy sum rad, sx = fmul (decodeX 0x8000) (decodeX 0x8000) ∧
      sy = fmul (decodeY 0x4000) (decodeY 0x4000) ∧ sum = fadd sx sy ∧
      rad = radicand (decodeX 0x8000) (decodeY 0x4000) ∧ signedUnits sum ≤ 2 ^ 124 :=
  ⟨_, _, _, _, rfl, rfl, rfl, rfl, by decide +kernel⟩

theorem witness_NegativeRadicandIsClampedAndSignalled :
    (unpackWord .clamp 0xFFFFFFFF).derr = true ∧ (unpackWord .clamp 0xFFFF8001).derr = false := by
  decide +kernel

theorem witness_SignOfZIsTheFlag : ∃ mag,
    mag = fsqrt (guardRadicand .clamp (radicand (decodeX (fieldX 0)) (decodeY (fieldY 0)))) :=
  ⟨_, rfl⟩

theorem witness_RoundTripKeepsXAndYWithinTolerance :
    packInDomain ⟨0xBF800000, 0x3F800000, 0x7FC00000⟩ = true := by decide +kernel

/-! ### Witnesses: the machine -/

theorem witness_StepRunsTheDecodedInstruction :
    let s := { State.reset with schedule := [.dec (.offer 5)] }
    s.schedule = .dec (.offer 5) :: [] ∧
    ({ s with schedule := [] } : State).presented (.dec (.offer 5)) = some (.atDecoder 5) ∧
    decode (Operand.atDecoder 5).port (Operand.atDecoder 5).bytes = .ok (.unpack 5) ∧
    decodeTableWord 32 5 = some (.unpack 5) := by decide

/-- A step and an exec from a build with both latencies above 0. -/
theorem witness_StepKeepsQueueDepths :
    let s := { State.resetWith ⟨1, 2, .nan⟩ with schedule := [.enc (.offer 1 2 3)] }
    s.depthsHold ∧ (∃ t, step s = .next t) ∧ (∃ t, exec (.unpack 5) s = .next t) :=
  ⟨by decide, ⟨_, rfl⟩, ⟨_, rfl⟩⟩

theorem witness_StepKeepsParametersAndNeverStartsAPrimitive : ∃ t, step State.reset = .next t := ⟨_, rfl⟩

theorem witness_DataWithoutValidHasNoEffect :
    EncIn.idle.valid = false ∧ ({ EncIn.idle with x := 7 } : EncIn).valid = false ∧
    EncIn.idle.rst = ({ EncIn.idle with x := 7 } : EncIn).rst ∧
    DecIn.idle.valid = false ∧ ({ DecIn.idle with word := 7 } : DecIn).valid = false ∧
    DecIn.idle.rst = ({ DecIn.idle with word := 7 } : DecIn).rst ∧
    State.reset.encValidO = false := by decide

/-- A result in an idle cycle (latency 1), in a wired cycle (latency 0) and at a reset edge (latency 1), and a cycle
without a result outside reset and in it (latency 0). -/
theorem witness_DomainErrorFlagTravelsWithItsResult :
    let held := { State.resetWith ⟨0, 1, .clamp⟩ with dec := ⟨[some 5], none, 0⟩ }
    let shown := { State.reset with enc := ⟨[], some 5, 1⟩ }
    let rst : DecIn := { DecIn.idle with rst := true }
    State.reset.decValidO = false ∧
    (held.decCycleInputs (.dec .idle) = some .idle ∧
      (held.dec.queue ++ [if DecIn.idle.valid then some DecIn.idle.word else none]).head? = some (some 5)) ∧
    (shown.decCycleInputs (.decWired false) = some (.offer 5) ∧ (DecIn.offer 5).rst = false ∧
      (shown.dec.queue ++ [if (DecIn.offer 5).valid then some (DecIn.offer 5).word else none]).head? =
        some (some 5)) ∧
    (State.reset.decCycleInputs (.dec .idle) = some .idle ∧ DecIn.idle.rst = false ∧
      (State.reset.dec.queue ++ [if DecIn.idle.valid then some DecIn.idle.word else none]).head? = some none) ∧
    (held.decCycleInputs (.dec rst) = some rst ∧ rst.rst = true ∧
      (held.dec.queue ++ [none]).head? = some (some 5)) ∧
    (State.reset.dec.queue ++ [none]).head? = some none := by decide

theorem witness_EncoderResetEdgeEmptiesItsQueue :
    let i : EncIn := { EncIn.idle with rst := true, valid := true }
    let s := { State.reset with schedule := [.enc i] }
    s.schedule = .enc i :: [] ∧ i.rst = true ∧ s.enc.queue = [] := by decide

/-- A reset edge offered an operand, and one wired to an encoder that presents a word. -/
theorem witness_DecoderResetEdgeEmptiesItsQueue :
    let i : DecIn := { rst := true, valid := true, word := 5 }
    let s := { State.reset with schedule := [.decWired true], enc := ⟨[], some 5, 1⟩ }
    s.schedule = .decWired true :: [] ∧ s.decCycleInputs (.decWired true) = some i ∧
    s.decCycleInputs (.dec i) = some i ∧ i.rst = true ∧ s.dec.queue = [] := by decide

/-- A full queue, a reset edge, and cycles after it that begin nothing, in each unit; the decoder's reset edge and
one later cycle are wired to the encoder. -/
theorem witness_TransactionsInFlightAtResetAreDropped :
    let i : EncIn := { EncIn.idle with rst := true }
    let s := { State.resetWith ⟨1, 1, .clamp⟩ with
      enc := ⟨[some ⟨1, 2, 3⟩], none, 0⟩, schedule := [.enc i, .enc .idle] }
    let es : List Event := [.dec .idle, .enc .idle, .decWired false]
    let u := { State.resetWith ⟨0, 1, .clamp⟩ with
      enc := ⟨[], some 7, 1⟩, dec := ⟨[some 5], none, 0⟩, schedule := .decWired true :: es }
    (i.rst = true ∧ s.schedule = .enc i :: ([.enc .idle] ++ []) ∧ (∃ t, step s = .next t) ∧
      (∀ k ∈ encInputs [.enc .idle], k.valid = false ∨ k.rst = true) ∧ encInputs [.enc .idle] ≠ []) ∧
    (u.decCycleInputs (.decWired true) = some { rst := true, valid := true, word := 7 } ∧
      u.schedule = .decWired true :: (es ++ []) ∧
      (∃ t, step u = .next t ∧ decoderBeginsNothing t es = true) ∧ es.any Event.isDecoder = true) :=
  ⟨⟨rfl, rfl, ⟨_, rfl⟩, by decide, by decide⟩, rfl, rfl, ⟨_, rfl, rfl⟩, rfl⟩

/-- Two runs with the same encoder cycle, one of them with a decoder cycle before it. -/
theorem witness_EncoderLearnsNothingFromTheDecoder :
    let s := { State.reset with schedule := [.enc (.offer 1 2 3)] }
    let s' := { State.resetWith ⟨0, 4, .nan⟩ with schedule := [.dec (.offer 5), .enc (.offer 1 2 3)] }
    s.enc = s'.enc ∧ s.encLog = s'.encLog ∧ s.config.encLatency = s'.config.encLatency ∧
    encInputs [.enc (.offer 1 2 3)] = encInputs [.dec (.offer 5), .enc (.offer 1 2 3)] ∧
    s.schedule = [.enc (.offer 1 2 3)] ++ [] ∧
    s'.schedule = [.dec (.offer 5), .enc (.offer 1 2 3)] ++ [] := by decide

/-- Two runs with the same decoder cycle from a held operand, one of them with an encoder cycle before it. -/
theorem witness_DecoderLearnsNothingFromTheEncoder :
    let d : DecUnit := ⟨[some 7], none, 3⟩
    let s := { State.resetWith ⟨0, 1, .nan⟩ with dec := d, schedule := [.dec (.offer 5)] }
    let s' := { State.resetWith ⟨4, 1, .nan⟩ with
      dec := d, schedule := [.enc (.offer 1 2 3), .dec (.offer 5)] }
    s.dec = s'.dec ∧ s.decLog = s'.decLog ∧ s.config.decLatency = s'.config.decLatency ∧
    s.config.radicandPolicy = s'.config.radicandPolicy ∧ unwired [.dec (.offer 5)] = true ∧
    unwired [.enc (.offer 1 2 3), .dec (.offer 5)] = true ∧
    decInputs [.dec (.offer 5)] = decInputs [.enc (.offer 1 2 3), .dec (.offer 5)] ∧
    s.schedule = [.dec (.offer 5)] ++ [] ∧
    s'.schedule = [.enc (.offer 1 2 3), .dec (.offer 5)] ++ [] := by decide

/-- One operand and one cycle to drain it, latency 1. -/
theorem witness_EncoderResultsAreImagesInOrder :
    let es : List Event := [.enc (.offer 1 2 3), .dec (.offer 5), .enc .idle]
    let s := { State.resetWith ⟨1, 0, .clamp⟩ with schedule := es }
    s.encEmpty ∧ s.schedule = es ++ [] ∧ encInputs es = [EncIn.offer 1 2 3] ++ [EncIn.idle] ∧
    [EncIn.idle].length = s.config.encLatency ∧ (∀ i ∈ [EncIn.idle], i.valid = false) ∧
    (∀ i ∈ [EncIn.offer 1 2 3] ++ [EncIn.idle], i.rst = false) := by decide

/-- One operand and one cycle to drain it, latency 1. -/
theorem witness_DecoderResultsAreImagesInOrder :
    let es : List Event := [.dec (.offer 5), .enc (.offer 1 2 3), .dec .idle]
    let s := { State.resetWith ⟨0, 1, .nan⟩ with schedule := es }
    s.decEmpty ∧ unwired es = true ∧ s.schedule = es ++ [] ∧
    decInputs es = [DecIn.offer 5] ++ [DecIn.idle] ∧ [DecIn.idle].length = s.config.decLatency ∧
    (∀ i ∈ [DecIn.idle], i.valid = false) ∧
    (∀ i ∈ [DecIn.offer 5] ++ [DecIn.idle], i.rst = false) := by decide

/-- Latency 1 in each unit, so two more shared cycles. -/
theorem witness_WiredRoundTripTakesBothLatencies :
    let s := { State.resetWith ⟨1, 1, .clamp⟩ with
      schedule := wiredCycles [.offer 1 2 3, .idle, .idle] }
    s.depthsHold ∧ s.schedule = wiredCycles (.offer 1 2 3 :: [.idle, .idle]) ++ [] ∧
    [EncIn.idle, .idle].length = s.config.encLatency + s.config.decLatency ∧
    (∀ i ∈ [EncIn.idle, .idle], i.rst = false) := by decide

theorem witness_IdleMachineDrains :
    let s := { State.resetWith ⟨2, 1, .clamp⟩ with enc := ⟨[some ⟨1, 2, 3⟩, none], none, 0⟩ }
    s.depthsHold ∧ s.schedule = [] ∧ s.config.encLatency ≤ 2 ∧ s.config.decLatency ≤ 2 := by decide

end Sys2Proof.Tests
end

section
/-! The settlement of O45: a step is clock cycles only, and no clock cycle of either unit touches the build
parameters or the probe. -/

namespace Sys2Proof.Proofs

open Sys2Proof Sys2Proof.Machine Sys2Proof.Laws

/-- The build parameters are constant in every clock cycle (00_scope.md R18). -/
@[simp] theorem clock_config (s : State) (e : Event) : (s.clock e).config = s.config := by
  cases e with
  | enc i => exact encCycle_config s i
  | dec i => exact decCycle_config s i
  | decWired rst => exact decCycle_config s (s.wiredIn rst)

/-- No event of the schedule shows the value of an internal primitive (00_scope.md R2). -/
@[simp] theorem clock_probe (s : State) (e : Event) : (s.clock e).probe = s.probe := by
  cases e with
  | enc i => exact encCycle_probe s i
  | dec i => exact decCycle_probe s i
  | decWired rst => exact decCycle_probe s (s.wiredIn rst)

@[simp] theorem idleCycle_config (s : State) : s.idleCycle.config = s.config := by
  simp [State.idleCycle]

@[simp] theorem idleCycle_probe (s : State) : s.idleCycle.probe = s.probe := by
  simp [State.idleCycle]

/-- Settles O45, by the two things a step can do: clock the unit of the next event, or idle both units. -/
theorem stepKeepsParametersAndNeverStartsAPrimitive :
    Obligations.StepKeepsParametersAndNeverStartsAPrimitive := by
  intro s t h
  obtain ⟨e, rest, -, rfl⟩ | ⟨-, rfl⟩ := step_cases h
  · exact ⟨clock_config _ e, clock_probe _ e⟩
  · exact ⟨idleCycle_config s, idleCycle_probe s⟩

end Sys2Proof.Proofs
end

section
/-! The settlement of O43 and O44: the depth of the in-flight queues (10_state.md R27) holds after reset and is kept
by a clock cycle of either unit, and a step or an exec is clock cycles and probes only. -/

namespace Sys2Proof.Proofs

open Sys2Proof Sys2Proof.Machine Sys2Proof.Laws

/-! ### What exec can do -/

/-- What exec can do: an encoder cycle for a PACK, a decoder cycle for an UNPACK, and the probe alone for an
internal primitive. -/
theorem exec_cases {i : Instr} {s t : State} (h : exec i s = .next t) :
    (∃ x y z, i = .pack x y z ∧ t = s.encCycle (.offer x y z)) ∨
      (∃ w, i = .unpack w ∧ t = s.decCycle (.offer w)) ∨
      (i.invocable = false ∧ ∃ v, t = s.withProbe v) := by
  cases i with
  | pack x y z => cases h; exact .inl ⟨x, y, z, rfl, rfl⟩
  | unpack w => cases h; exact .inr (.inl ⟨w, rfl, rfl⟩)
  | unorm x => cases h; exact .inr (.inr ⟨rfl, .unorm (unorm x), rfl⟩)
  | q15 f => cases h; exact .inr (.inr ⟨rfl, .q15 (q15 f), rfl⟩)
  | q16 f => cases h; exact .inr (.inr ⟨rfl, .q16 (q16 f), rfl⟩)
  | snorm q => cases h; exact .inr (.inr ⟨rfl, .snorm (snorm q), rfl⟩)

/-! ### What keeps the queue depths -/

theorem encCycle_depthsHold {s : State} (h : s.depthsHold) (i : EncIn) : (s.encCycle i).depthsHold := by
  obtain ⟨henc, hdec⟩ := h
  exact ⟨clockQueue_length henc i.rst i.offered, hdec⟩

theorem decCycle_depthsHold {s : State} (h : s.depthsHold) (i : DecIn) : (s.decCycle i).depthsHold := by
  obtain ⟨henc, hdec⟩ := h
  exact ⟨henc, clockQueue_length hdec i.rst i.offered⟩

theorem clock_depthsHold {s : State} (h : s.depthsHold) (e : Event) : (s.clock e).depthsHold := by
  cases e with
  | enc i => exact encCycle_depthsHold h i
  | dec i => exact decCycle_depthsHold h i
  | decWired rst => exact decCycle_depthsHold h (s.wiredIn rst)

theorem idleCycle_depthsHold {s : State} (h : s.depthsHold) : s.idleCycle.depthsHold :=
  decCycle_depthsHold (encCycle_depthsHold h .idle) .idle

/-- The depths speak of the queues and the parameters, so the schedule may change under them. -/
theorem withSchedule_depthsHold {s : State} (h : s.depthsHold) (es : List Event) :
    ({ s with schedule := es } : State).depthsHold := h

/-- As `withSchedule_depthsHold`, for the probe. -/
theorem withProbe_depthsHold {s : State} (h : s.depthsHold) (v : PrimValue) : (s.withProbe v).depthsHold := h

theorem step_depthsHold {s t : State} (h : s.depthsHold) (hst : step s = .next t) : t.depthsHold := by
  obtain ⟨e, rest, -, rfl⟩ | ⟨-, rfl⟩ := step_cases hst
  · exact clock_depthsHold (withSchedule_depthsHold h rest) e
  · exact idleCycle_depthsHold h

theorem exec_depthsHold {i : Instr} {s t : State} (h : s.depthsHold) (hst : exec i s = .next t) :
    t.depthsHold := by
  obtain ⟨x, y, z, -, rfl⟩ | ⟨w, -, rfl⟩ | ⟨-, v, rfl⟩ := exec_cases hst
  · exact encCycle_depthsHold h (.offer x y z)
  · exact decCycle_depthsHold h (.offer w)
  · exact withProbe_depthsHold h v

theorem resetWith_depthsHold (c : Config) : (State.resetWith c).depthsHold :=
  ⟨List.length_replicate, List.length_replicate⟩

/-- Settles O43: one clock cycle of a unit keeps its queue at its latency and leaves the other unit alone. -/
theorem stepKeepsQueueDepths : Obligations.StepKeepsQueueDepths :=
  ⟨fun _ _ => step_depthsHold, fun _ _ _ => exec_depthsHold⟩

/-- Settles O44, by the fields of the state after reset: no unit has a result, so its ports show none. -/
theorem resetLeavesQueuesEmptyAndValidLow : Obligations.ResetLeavesQueuesEmptyAndValidLow := by
  refine ⟨fun c => ?_, rfl, resetWith_depthsHold Config.normalCodec⟩
  obtain ⟨hvalid, hderr⟩ := decPorts_none (resetWith_decOut c)
  exact ⟨resetWith_config c, resetWith_depthsHold c, resetWith_encQueue c, resetWith_decQueue c,
    encPorts_none (resetWith_encOut c), hvalid, hderr⟩

end Sys2Proof.Proofs
end

section
/-! The settlement of O46: a clock cycle sees its data inputs through the operand offered only, and without `valid`
nothing is offered (10_state.md R32). -/

namespace Sys2Proof.Proofs

open Sys2Proof Sys2Proof.Machine Sys2Proof.Laws

/-- An encoder cycle depends on its inputs through `rst` and the operand offered only. -/
theorem encCycle_congr (s : State) {i j : EncIn} (hrst : i.rst = j.rst) (hoffered : i.offered = j.offered) :
    s.encCycle i = s.encCycle j := by
  simp only [State.encCycle, hrst, hoffered]

/-- A decoder cycle depends on its inputs through `rst` and the operand offered only. -/
theorem decCycle_congr (s : State) {i j : DecIn} (hrst : i.rst = j.rst) (hoffered : i.offered = j.offered) :
    s.decCycle i = s.decCycle j := by
  simp only [State.decCycle, hrst, hoffered]

/-- Without `enc_valid_i` the encoder's data inputs have no effect (10_state.md R32). -/
theorem encCycle_of_not_valid (s : State) {i j : EncIn} (hi : i.valid = false) (hj : j.valid = false)
    (hrst : i.rst = j.rst) : s.encCycle i = s.encCycle j :=
  encCycle_congr s hrst ((encOffered_none hi).trans (encOffered_none hj).symm)

/-- Without `dec_valid_i` the decoder's data inputs have no effect (10_state.md R32). -/
theorem decCycle_of_not_valid (s : State) {i j : DecIn} (hi : i.valid = false) (hj : j.valid = false)
    (hrst : i.rst = j.rst) : s.decCycle i = s.decCycle j :=
  decCycle_congr s hrst ((decOffered_none hi).trans (decOffered_none hj).symm)

/-- Two events that clock the state alike give the same step. -/
theorem step_eq_of_clock_eq {s : State} {e e' : Event} {rest : List Event}
    (h : ({ s with schedule := rest } : State).clock e = ({ s with schedule := rest } : State).clock e') :
    step { s with schedule := e :: rest } = step { s with schedule := e' :: rest } := by
  rw [step_cons rfl, step_cons rfl]
  exact congrArg Host.Outcome.next h

/-- Settles O46: the step of each event is its unit's clock cycle, and the wired inputs of a cycle in which
`enc_valid_o` is 0 have `valid` 0 too, whatever the free value on `enc_word_o`. -/
theorem dataWithoutValidHasNoEffect : Obligations.DataWithoutValidHasNoEffect := by
  refine ⟨fun s i j rest hi hj hrst => step_eq_of_clock_eq ?_,
    fun s i j rest hi hj hrst => step_eq_of_clock_eq ?_, fun s i rest henc hi => step_eq_of_clock_eq ?_⟩
  · exact encCycle_of_not_valid _ hi hj hrst
  · exact decCycle_of_not_valid _ hi hj hrst
  · have hwired : (({ s with schedule := rest } : State).wiredIn i.rst).valid = false := henc
    exact decCycle_of_not_valid _ hwired hi rfl

end Sys2Proof.Proofs
end

section
/-! The settlement of O47: the result a decoder cycle presents is that of the entry at the head of the queue with
what enters behind it, and the flag is a field of that result (10_state.md R23). -/

namespace Sys2Proof.Proofs

open Sys2Proof Sys2Proof.Machine Sys2Proof.Laws

/-- What a clock cycle puts behind the queue: the operand offered, and nothing at a reset edge
(70_reset_and_hazards.md R169). -/
def enteringWord (i : DecIn) : Option Word := if i.rst then none else i.offered

theorem enteringWord_run {i : DecIn} (h : i.rst = false) :
    enteringWord i = if i.valid then some i.word else none := by
  simp [enteringWord, DecIn.offered, h]

theorem enteringWord_reset {i : DecIn} (h : i.rst = true) : enteringWord i = none := by
  simp [enteringWord, h]

/-- The result port of a decoder cycle, in reset or not: the image of the head of the queue with what enters
behind it. -/
theorem decCycle_out_eq_head (s : State) (i : DecIn) : (s.decCycle i).dec.out =
    (s.dec.queue ++ [enteringWord i]).head?.join.map (unpackWord s.config.radicandPolicy) := by
  rw [decCycle_out]
  cases hrst : i.rst with
  | false => simp [clockQueue_run, enteringWord, hrst]
  | true => cases hq : s.dec.queue <;> simp [clockQueue_reset, enteringWord_reset hrst]

/-- An operand at the head is presented, with the flag of its own radicand (42_decoder.md R126). -/
theorem decCycle_ports_of_head_some {s : State} {i : DecIn} {w : Word}
    (h : (s.dec.queue ++ [enteringWord i]).head? = some (some w)) :
    (s.decCycle i).decValidO = true ∧
      (s.decCycle i).decDerrO = flt (radicand (decodeX (fieldX w)) (decodeY (fieldY w))) fZero := by
  have hout : (s.decCycle i).dec.out = some (unpackWord s.config.radicandPolicy w) := by
    rw [decCycle_out_eq_head, h]; rfl
  obtain ⟨hvalid, -, -, -, hderr⟩ := decPorts_some hout
  exact ⟨hvalid, hderr.trans (unpackWord_derr _ w)⟩

/-- An empty entry at the head presents nothing, and the flag is 0. -/
theorem decCycle_ports_of_head_none {s : State} {i : DecIn}
    (h : (s.dec.queue ++ [enteringWord i]).head? = some none) :
    (s.decCycle i).decValidO = false ∧ (s.decCycle i).decDerrO = false := by
  apply decPorts_none
  rw [decCycle_out_eq_head, h]; rfl

theorem decDerrO_of_not_decValidO {s : State} (h : s.decValidO = false) : s.decDerrO = false := by
  have hout : s.dec.out = none := by simpa [State.decValidO] using h
  exact (decPorts_none hout).2

/-- Settles O47: the step is one decoder cycle, and what enters behind its queue is the operand offered outside
reset and nothing in reset. -/
theorem domainErrorFlagTravelsWithItsResult : Obligations.DomainErrorFlagTravelsWithItsResult := by
  refine ⟨fun s => decDerrO_of_not_decValidO, fun s e rest i hsched hin =>
    ⟨_, step_dec hsched hin, fun w hrst hhead => ?_, fun hrst hhead => ?_, fun w hrst hhead => ?_,
      fun hrst hhead => ?_⟩⟩
  · exact decCycle_ports_of_head_some (by rwa [enteringWord_run hrst])
  · exact decCycle_ports_of_head_none (by rwa [enteringWord_run hrst])
  · exact decCycle_ports_of_head_some (by rwa [enteringWord_reset hrst])
  · exact decCycle_ports_of_head_none (by rwa [enteringWord_reset hrst])

end Sys2Proof.Proofs
end

section
/-! The settlement of O7: the bytes of a serialised word and its fields are both slices of the word, so each
clause of 20_memory.md R40 is arithmetic on the word's value. -/

namespace Sys2Proof.Proofs

open Sys2Proof Sys2Proof.Machine Sys2Proof.Laws

theorem toNat_slice (w : Word) (start len : Nat) :
    (w.extractLsb' start len).toNat = w.toNat / 2 ^ start % 2 ^ len := by
  rw [BitVec.extractLsb'_toNat, Nat.shiftRight_eq_div_pow]

theorem fieldX_toNat (w : Word) : (fieldX w).toNat = w.toNat / 2 ^ 16 % 2 ^ 16 := toNat_slice w 16 16

theorem fieldY_toNat (w : Word) : (fieldY w).toNat = w.toNat / 2 ^ 1 % 2 ^ 15 := toNat_slice w 1 15

theorem fieldS_toNat (w : Word) : (fieldS w).toNat = w.toNat % 2 := by
  rw [fieldS, BitVec.getLsbD, Nat.testBit_zero]
  obtain h | h := Nat.mod_two_eq_zero_or_one w.toNat <;> simp [h]

/-- Settles O7, with the four slices of the serialisation as the bytes. -/
theorem serialisedWordIsBigEndian : Obligations.SerialisedWordIsBigEndian := by
  intro w
  refine ⟨_, _, _, _, rfl, ?_, ?_, ?_, wordOfBytes_slices w⟩
  · rw [fieldX_toNat, toNat_slice, toNat_slice]; omega
  · rw [fieldY_toNat, toNat_slice, toNat_slice]; omega
  · rw [fieldS_toNat, toNat_slice]; omega

end Sys2Proof.Proofs
end

section
/-! The settlement of O51: a cycle of a unit reads and writes its own unit, its own log and the build parameters
only (20_memory.md R46). -/

namespace Sys2Proof.Proofs

open Sys2Proof Sys2Proof.Machine Sys2Proof.Laws

/-- An encoder cycle and a decoder cycle whose inputs are the environment's own commute. -/
theorem encCycle_decCycle_comm (s : State) (i : EncIn) (j : DecIn) :
    (s.encCycle i).decCycle j = (s.decCycle j).encCycle i := rfl

/-- Settles O51: either run is the two cycles, one after the other. -/
theorem unitsDoNotInteract : Obligations.UnitsDoNotInteract := by
  intro s i j rest
  have hencFirst := run_schedule [.enc i, .dec j] rest { s with schedule := .enc i :: .dec j :: rest } rfl
  have hdecFirst := run_schedule [.dec j, .enc i] rest { s with schedule := .dec j :: .enc i :: rest } rfl
  have hcomm := encCycle_decCycle_comm { s with schedule := rest } i j
  exact hencFirst.trans ((congrArg Host.Outcome.next hcomm).trans hdecFirst.symm)

end Sys2Proof.Proofs
end

section
/-! Both units as one kind of machine, a pipeline: the queue of `clockQueue` with an image function behind it and a
log of what it presents. What holds of any pipeline is proved here once; `encPipe` and `decPipe` are what the encoder
and the decoder of a state are as pipelines, and a run of the model runs them on the unit's own inputs. -/

namespace Sys2Proof.Proofs

open Sys2Proof Sys2Proof.Machine Sys2Proof.Laws

/-- A unit with what its cycles depend on: its latency, the operation it computes and all that it holds. -/
structure Pipe (α β : Type) where
  latency : Nat
  image : α → β
  queue : List (Option α)
  out : Option β
  cycle : Nat
  log : List (Nat × β)

/-- One clock cycle: `rst` at the edge that ends it, and the operand offered in it. -/
def Pipe.clock {α β : Type} (p : Pipe α β) (drive : Bool × Option α) : Pipe α β :=
  let shifted := clockQueue p.latency drive.1 drive.2 p.queue
  let result := shifted.1.map p.image
  { p with
    queue := shifted.2
    out := result
    cycle := p.cycle + 1
    log := p.log ++ (result.map fun r => (p.cycle, r)).toList }

/-- One clock cycle outside reset. -/
def Pipe.shift {α β : Type} (p : Pipe α β) (offered : Option α) : Pipe α β := p.clock (false, offered)

/-- What a pipeline presents, cycle by cycle, while it is offered `offers` outside reset: the images of the entries
that leave its queue, those of `offers` behind those already in it. -/
def Pipe.presents {α β : Type} (p : Pipe α β) (offers : List (Option α)) : List (Option β) :=
  ((p.queue ++ offers).take offers.length).map (Option.map p.image)

/-- The results presented in consecutive cycles, each with the number of its cycle, the first cycle being `t`. -/
def stamp {β : Type} : (t : Nat) → List (Option β) → List (Nat × β)
  | _, [] => []
  | t, r :: rs => (r.map fun r => (t, r)).toList ++ stamp (t + 1) rs

section
variable {α β : Type} (p : Pipe α β) (o : Option α)

/-! ### One cycle outside reset -/

@[simp] theorem shift_image : (p.shift o).image = p.image := rfl
@[simp] theorem shift_cycle : (p.shift o).cycle = p.cycle + 1 := rfl
@[simp] theorem shift_log : (p.shift o).log =
    p.log ++ ((p.shift o).out.map fun r => (p.cycle, r)).toList := rfl

@[simp] theorem shift_queue : (p.shift o).queue = (p.queue ++ [o]).tail :=
  congrArg Prod.snd (clockQueue_run p.latency o p.queue)

theorem shift_out : (p.shift o).out = (p.queue ++ [o]).head?.join.map p.image :=
  congrArg (fun shifted => shifted.1.map p.image) (clockQueue_run p.latency o p.queue)

/-- What is presented first is the result of the first cycle. -/
theorem presents_cons (os : List (Option α)) :
    p.presents (o :: os) = (p.shift o).out :: (p.shift o).presents os := by
  rw [shift_out]
  cases hq : p.queue with
  | nil => simp [Pipe.presents, hq]
  | cons front queue => simp [Pipe.presents, hq]

theorem presents_length (os : List (Option α)) : (p.presents os).length = os.length := by
  simp [Pipe.presents]

/-! ### Many cycles outside reset -/

/-- After any cycles outside reset the queue holds the latest entries. -/
theorem shiftAll_queue (os : List (Option α)) (p : Pipe α β) :
    (os.foldl Pipe.shift p).queue = (p.queue ++ os).drop os.length := by
  induction os generalizing p with
  | nil => simp
  | cons o os ih =>
    rw [List.foldl_cons, ih, shift_queue]
    cases p.queue with
    | nil => simp
    | cons front queue => simp

@[simp] theorem shiftAll_image (os : List (Option α)) (p : Pipe α β) :
    (os.foldl Pipe.shift p).image = p.image := by
  induction os generalizing p with
  | nil => rfl
  | cons o os ih => exact ih (p.shift o)

@[simp] theorem shiftAll_cycle (os : List (Option α)) (p : Pipe α β) :
    (os.foldl Pipe.shift p).cycle = p.cycle + os.length := by
  induction os generalizing p with
  | nil => rfl
  | cons o os ih => rw [List.foldl_cons, ih, shift_cycle, List.length_cons]; omega

/-- The log of any cycles outside reset: what was presented, each result in its own cycle and no other. -/
theorem shiftAll_log (os : List (Option α)) (p : Pipe α β) :
    (os.foldl Pipe.shift p).log = p.log ++ stamp p.cycle (p.presents os) := by
  induction os generalizing p with
  | nil => simp [Pipe.presents, stamp]
  | cons o os ih =>
    rw [List.foldl_cons, ih, shift_log, shift_cycle, presents_cons, stamp, List.append_assoc]

/-- The result port after `n + 1` cycles shows the image of the entry that was `n` places behind the front. -/
theorem shiftAll_out {n : Nat} (os : List (Option α)) (p : Pipe α β) (hn : os.length = n + 1) :
    (os.foldl Pipe.shift p).out = ((p.queue ++ os)[n]?).join.map p.image := by
  obtain rfl | ⟨before, o, rfl⟩ := List.eq_nil_or_concat' os
  · cases hn
  · obtain rfl : before.length = n := by simpa using hn
    have hdepth : before.length ≤ (p.queue ++ before).length := by simp
    rw [List.foldl_append, List.foldl_cons, List.foldl_nil, shift_out, shiftAll_queue, shiftAll_image,
      ← List.drop_append_of_le_length hdepth, List.head?_drop, List.append_assoc]

/-! ### From an empty queue -/

/-- Cycles that present nothing only delay the results after them. -/
theorem stamp_replicate_none_append (t k : Nat) (rs : List (Option β)) :
    stamp t (List.replicate k none ++ rs) = stamp (t + k) rs := by
  induction k generalizing t with
  | zero => rfl
  | succ k ih => simp [List.replicate_succ, stamp, ih, Nat.add_right_comm, ← Nat.add_assoc]

/-- A pipeline with an empty queue of depth `k`, given operands and then drained for `k` cycles, has presented the
image of each operand `k` cycles after it was offered, and its queue is empty again. -/
theorem shiftAll_drained {k : Nat} (hempty : p.queue = List.replicate k none) (given : List (Option α)) :
    ((given ++ List.replicate k none).foldl Pipe.shift p).log =
        p.log ++ stamp (p.cycle + k) (given.map (Option.map p.image)) ∧
      ((given ++ List.replicate k none).foldl Pipe.shift p).queue = List.replicate k none := by
  have hlen : (given ++ List.replicate k (none : Option α)).length = (p.queue ++ given).length := by
    simp [hempty, Nat.add_comm]
  constructor
  · rw [shiftAll_log, Pipe.presents, hlen, ← List.append_assoc, List.take_left, hempty, List.map_append,
      List.map_replicate, Option.map_none, stamp_replicate_none_append]
  · rw [shiftAll_queue, hlen, ← List.append_assoc, List.drop_left]

/-- Cycles none of which ends in a reset edge shift the queue by what they offer. -/
theorem clockAll_of_no_reset {ι : Type} (drive : ι → Bool × Option α) (is : List ι) (p : Pipe α β)
    (hrst : ∀ i ∈ is, (drive i).1 = false) :
    (is.map drive).foldl Pipe.clock p = (is.map fun i => (drive i).2).foldl Pipe.shift p := by
  induction is generalizing p with
  | nil => rfl
  | cons i is ih =>
    obtain ⟨hi, his⟩ := List.forall_mem_cons.mp hrst
    have hshift : p.clock (drive i) = p.shift (drive i).2 := congrArg p.clock (Prod.ext hi rfl)
    rw [List.map_cons, List.map_cons, List.foldl_cons, List.foldl_cons, hshift, ih _ his]

end

/-! ### The encoder as a pipeline -/

/-- What the encoder's inputs are to a pipeline. -/
def encDrive (i : EncIn) : Bool × Option Vec3 := (i.rst, i.offered)

/-- The encoder of a state. -/
def encPipe (s : State) : Pipe Vec3 Word where
  latency := s.config.encLatency
  image := packWord
  queue := s.enc.queue
  out := s.enc.out
  cycle := s.enc.cycle
  log := s.encLog

@[simp] theorem encPipe_queue (s : State) : (encPipe s).queue = s.enc.queue := rfl

theorem encPipe_encCycle (s : State) (i : EncIn) :
    encPipe (s.encCycle i) = (encPipe s).clock (encDrive i) := rfl

/-- A cycle outside reset shifts the encoder. -/
theorem encPipe_encCycle_run (s : State) {i : EncIn} (h : i.rst = false) :
    encPipe (s.encCycle i) = (encPipe s).shift i.offered := by
  rw [encPipe_encCycle, encDrive, h, Pipe.shift]

/-- A run over any schedule runs the encoder on its own inputs, and on nothing else. -/
theorem clockAll_encPipe (es : List Event) (s : State) :
    encPipe (clockAll es s) = ((encInputs es).map encDrive).foldl Pipe.clock (encPipe s) := by
  induction es generalizing s with
  | nil => rfl
  | cons e es ih =>
    cases e with
    | enc i => exact ih (s.encCycle i)
    | dec j => exact ih (s.decCycle j)
    | decWired rst => exact ih (s.decCycle (s.wiredIn rst))

/-! ### The decoder as a pipeline -/

/-- What the decoder's inputs are to a pipeline. -/
def decDrive (j : DecIn) : Bool × Option Word := (j.rst, j.offered)

/-- The decoder of a state, under the policy it is built with. -/
def decPipe (s : State) : Pipe Word DecResult where
  latency := s.config.decLatency
  image := unpackWord s.config.radicandPolicy
  queue := s.dec.queue
  out := s.dec.out
  cycle := s.dec.cycle
  log := s.decLog

@[simp] theorem decPipe_queue (s : State) : (decPipe s).queue = s.dec.queue := rfl
@[simp] theorem decPipe_encCycle (s : State) (i : EncIn) : decPipe (s.encCycle i) = decPipe s := rfl

theorem decPipe_decCycle (s : State) (j : DecIn) :
    decPipe (s.decCycle j) = (decPipe s).clock (decDrive j) := rfl

/-- A run over a schedule without wired cycles runs the decoder on its own inputs, and on nothing else. -/
theorem clockAll_decPipe (es : List Event) (s : State) (hunwired : unwired es = true) :
    decPipe (clockAll es s) = ((decInputs es).map decDrive).foldl Pipe.clock (decPipe s) := by
  induction es generalizing s with
  | nil => rfl
  | cons e es ih =>
    cases e with
    | enc i => exact ih (s.encCycle i) hunwired
    | dec j => exact ih (s.decCycle j) hunwired
    | decWired rst => cases hunwired

end Sys2Proof.Proofs
end

section
/-! The settlement of O52 and O57: a run is, for each unit, a run of its pipeline on its own inputs, so what two runs
start from and are driven with alike they end with alike (60_exceptions.md R152). -/

namespace Sys2Proof.Proofs

open Sys2Proof Sys2Proof.Machine Sys2Proof.Laws

theorem encPipe_congr {s s' : State} (henc : s.enc = s'.enc) (hlog : s.encLog = s'.encLog)
    (hlatency : s.config.encLatency = s'.config.encLatency) : encPipe s = encPipe s' := by
  simp only [encPipe, henc, hlog, hlatency]

theorem decPipe_congr {s s' : State} (hdec : s.dec = s'.dec) (hlog : s.decLog = s'.decLog)
    (hlatency : s.config.decLatency = s'.config.decLatency)
    (hpolicy : s.config.radicandPolicy = s'.config.radicandPolicy) : decPipe s = decPipe s' := by
  simp only [decPipe, hdec, hlog, hlatency, hpolicy]

/-- The pipeline holds the whole of the encoder and its log. -/
theorem enc_eq_of_encPipe_eq {s s' : State} (h : encPipe s = encPipe s') :
    s.enc = s'.enc ∧ s.encLog = s'.encLog := by
  obtain ⟨-, -, hqueue, hout, hcycle, hlog⟩ := Pipe.mk.inj h
  exact ⟨(EncUnit.mk.injEq ..).mpr ⟨hqueue, hout, hcycle⟩, hlog⟩

/-- The pipeline holds the whole of the decoder and its log. -/
theorem dec_eq_of_decPipe_eq {s s' : State} (h : decPipe s = decPipe s') :
    s.dec = s'.dec ∧ s.decLog = s'.decLog := by
  obtain ⟨-, -, hqueue, hout, hcycle, hlog⟩ := Pipe.mk.inj h
  exact ⟨(DecUnit.mk.injEq ..).mpr ⟨hqueue, hout, hcycle⟩, hlog⟩

/-- Settles O52: the two runs start from the same encoder pipeline and drive it alike. -/
theorem encoderLearnsNothingFromTheDecoder : Obligations.EncoderLearnsNothingFromTheDecoder := by
  intro s s' es es' rest rest' henc hlog hlatency hinputs hsched hsched'
  have hstart : encPipe { s with schedule := rest } = encPipe { s' with schedule := rest' } :=
    encPipe_congr henc hlog hlatency
  refine ⟨_, _, run_schedule es rest s hsched, run_schedule es' rest' s' hsched', ?_⟩
  apply enc_eq_of_encPipe_eq
  rw [clockAll_encPipe, clockAll_encPipe, hinputs, hstart]

/-- Settles O57: as O52, for the decoder, whose inputs are its own when no cycle is wired. -/
theorem decoderLearnsNothingFromTheEncoder : Obligations.DecoderLearnsNothingFromTheEncoder := by
  intro s s' es es' rest rest' hdec hlog hlatency hpolicy hunwired hunwired' hinputs hsched hsched'
  have hstart : decPipe { s with schedule := rest } = decPipe { s' with schedule := rest' } :=
    decPipe_congr hdec hlog hlatency hpolicy
  refine ⟨_, _, run_schedule es rest s hsched, run_schedule es' rest' s' hsched', ?_⟩
  apply dec_eq_of_decPipe_eq
  rw [clockAll_decPipe es _ hunwired, clockAll_decPipe es' _ hunwired', hinputs, hstart]

end Sys2Proof.Proofs
end

section
/-! The settlement of O53 and O54: a drained pipeline has presented the image of each operand, in order, its latency
after the operand (70_reset_and_hazards.md R164, R166, R170). -/

namespace Sys2Proof.Proofs

open Sys2Proof Sys2Proof.Machine Sys2Proof.Laws

/-- The results due from encoder inputs are the images of what they offer, from `latency` cycles later on. -/
theorem encResultsDue_eq_stamp (latency t : Nat) (is : List EncIn) :
    encResultsDue latency t is =
      stamp (t + latency) ((is.map EncIn.offered).map (Option.map packWord)) := by
  induction is generalizing t with
  | nil => rfl
  | cons i is ih => simp [encResultsDue, stamp, ih, Option.map_map, Function.comp_def, Nat.add_right_comm]

/-- As `encResultsDue_eq_stamp`, for the decoder. -/
theorem decResultsDue_eq_stamp (policy : RadicandPolicy) (latency t : Nat) (js : List DecIn) :
    decResultsDue policy latency t js =
      stamp (t + latency) ((js.map DecIn.offered).map (Option.map (unpackWord policy))) := by
  induction js generalizing t with
  | nil => rfl
  | cons j js ih => simp [decResultsDue, stamp, ih, Option.map_map, Function.comp_def, Nat.add_right_comm]

/-- Inputs to drain a unit offer nothing. -/
theorem map_offered_drain {ι α : Type} {offered : ι → Option α} {given drain : List ι}
    (h : ∀ i ∈ drain, offered i = none) :
    (given ++ drain).map offered = given.map offered ++ List.replicate drain.length none := by
  rw [List.map_append, List.map_eq_replicate_iff.mpr h]

/-- Settles O53: the encoder is driven by what the operands offer and by nothing after them, and `encEmpty` is the
empty queue of `shiftAll_drained`. -/
theorem encoderResultsAreImagesInOrder : Obligations.EncoderResultsAreImagesInOrder := by
  intro s es rest given drain hempty hsched hinputs hlength hdrain hrst
  obtain ⟨hconfig, hschedule, -, -, -⟩ := clockAll_enc es { s with schedule := rest }
  have hpipe : encPipe (clockAll es { s with schedule := rest }) =
      (given.map EncIn.offered ++ List.replicate s.config.encLatency none).foldl Pipe.shift (encPipe s) := by
    rw [clockAll_encPipe, hinputs, clockAll_of_no_reset encDrive _ _ hrst, ← hlength,
      ← map_offered_drain fun i hi => encOffered_none (hdrain i hi)]
    rfl
  obtain ⟨hlog, hqueue⟩ := shiftAll_drained (encPipe s) hempty (given.map EncIn.offered)
  rw [← hpipe] at hlog hqueue
  refine ⟨_, run_schedule es rest s hsched, ?_, ?_, hschedule, hconfig⟩
  · rw [encResultsDue_eq_stamp]; exact hlog
  · rw [State.encEmpty, hconfig]; exact hqueue

/-- Settles O54: as O53, for the decoder, whose inputs are its own when no cycle is wired. -/
theorem decoderResultsAreImagesInOrder : Obligations.DecoderResultsAreImagesInOrder := by
  intro s es rest given drain hempty hunwired hsched hinputs hlength hdrain hrst
  obtain ⟨hconfig, hschedule, -, -, -⟩ := clockAll_enc es { s with schedule := rest }
  have hpipe : decPipe (clockAll es { s with schedule := rest }) =
      (given.map DecIn.offered ++ List.replicate s.config.decLatency none).foldl Pipe.shift (decPipe s) := by
    rw [clockAll_decPipe es _ hunwired, hinputs, clockAll_of_no_reset decDrive _ _ hrst, ← hlength,
      ← map_offered_drain fun j hj => decOffered_none (hdrain j hj)]
    rfl
  obtain ⟨hlog, hqueue⟩ := shiftAll_drained (decPipe s) hempty (given.map DecIn.offered)
  rw [← hpipe] at hlog hqueue
  refine ⟨_, run_schedule es rest s hsched, ?_, ?_, hschedule, hconfig⟩
  · rw [decResultsDue_eq_stamp]; exact hlog
  · rw [State.decEmpty, hconfig]; exact hqueue

end Sys2Proof.Proofs
end

section
/-! The settlement of O55: wired to the encoder, the decoder is offered in each shared cycle what the encoder
presents in it (20_memory.md R51), so the two pipelines are one behind the other. -/

namespace Sys2Proof.Proofs

open Sys2Proof Sys2Proof.Machine Sys2Proof.Laws

theorem wiredCycles_length (is : List EncIn) : (wiredCycles is).length = 2 * is.length := by
  induction is with
  | nil => rfl
  | cons i is ih => simp only [wiredCycles, List.length_cons, ih]; omega

/-- The wiring offers the decoder what the encoder presents, and nothing when it presents nothing. -/
theorem wiredIn_offered (s : State) (rst : Bool) : (s.wiredIn rst).offered = s.enc.out := by
  cases hout : s.enc.out with
  | none => exact decOffered_none (encPorts_none hout)
  | some w =>
    obtain ⟨hvalid, hword⟩ := encPorts_some hout
    simp [DecIn.offered, State.wiredIn, hvalid, hword]

/-- A cycle wired to the encoder, out of reset, shifts the decoder by the encoder's result port. -/
theorem decPipe_clock_decWired (s : State) :
    decPipe (s.clock (.decWired false)) = (decPipe s).shift (encPipe s).out := by
  rw [State.clock, decPipe_decCycle, decDrive, wiredIn_offered]; rfl

/-- Over shared cycles the decoder is offered what the encoder presents in them. -/
theorem clockAll_wiredCycles_decPipe (is : List EncIn) (s : State) (hrst : ∀ i ∈ is, i.rst = false) :
    decPipe (clockAll (wiredCycles is) s) =
      ((encPipe s).presents (is.map EncIn.offered)).foldl Pipe.shift (decPipe s) := by
  induction is generalizing s with
  | nil => rfl
  | cons i is ih =>
    obtain ⟨hi, his⟩ := List.forall_mem_cons.mp hrst
    have henc : encPipe ((s.encCycle i).clock (.decWired false)) = (encPipe s).shift i.offered :=
      encPipe_encCycle_run s hi
    have hdec : decPipe ((s.encCycle i).clock (.decWired false)) =
        (decPipe s).shift ((encPipe s).shift i.offered).out := by
      rw [decPipe_clock_decWired, decPipe_encCycle, encPipe_encCycle_run s hi]
    rw [List.map_cons, presents_cons, List.foldl_cons, ← hdec, ← henc]
    exact ih _ his

/-- Two pipelines one behind the other: what the first is offered in its first cycle comes out of the second as many
cycles later as both queues are deep. -/
theorem presents_shiftAll_out {α β γ : Type} (p : Pipe α β) (q : Pipe β γ) (a : α) (os : List (Option α))
    (hdepth : os.length = p.queue.length + q.queue.length) :
    ((p.presents (some a :: os)).foldl Pipe.shift q).out = some (q.image (p.image a)) := by
  have hfirst : (p.presents (some a :: os))[p.queue.length]? = some (some (p.image a)) := by
    have hin : p.queue.length < os.length + 1 := by omega
    simp [Pipe.presents, hin]
  have hplace : (q.queue ++ p.presents (some a :: os))[os.length]? = some (some (p.image a)) := by
    rw [List.getElem?_append_right (by omega), hdepth, Nat.add_sub_cancel, hfirst]
  rw [shiftAll_out _ q (presents_length p _), hplace]; rfl

/-- Settles O55: the run is the decoder's pipeline behind the encoder's. -/
theorem wiredRoundTripTakesBothLatencies : Obligations.WiredRoundTripTakesBothLatencies := by
  intro s x y z more rest hdepths hsched hlength hrst
  obtain ⟨henc, hdec⟩ := hdepths
  have hpipe := clockAll_wiredCycles_decPipe (.offer x y z :: more) { s with schedule := rest }
    (List.forall_mem_cons.mpr ⟨rfl, hrst⟩)
  have hrun := run_schedule (wiredCycles (.offer x y z :: more)) rest s hsched
  rw [wiredCycles_length, List.length_cons, hlength] at hrun
  refine ⟨_, hrun, ?_, ?_⟩
  · have hout := presents_shiftAll_out (encPipe s) (decPipe s) ⟨x, y, z⟩ (more.map EncIn.offered) (by
      rw [List.length_map, hlength, encPipe_queue, decPipe_queue, henc, hdec])
    exact (congrArg Pipe.out hpipe).trans hout
  · have hcycle := shiftAll_cycle ((encPipe s).presents ((.offer x y z :: more).map EncIn.offered)) (decPipe s)
    rw [presents_length, List.length_map, List.length_cons, hlength, ← Nat.add_assoc] at hcycle
    exact (congrArg Pipe.cycle hpipe).trans hcycle

end Sys2Proof.Proofs
end

section
/-! The settlement of O1 and O2: at its port an operand and its bytes determine each other (30_encoding.md R65),
and an instruction is encoded exactly when a port's operand selects it. -/

namespace Sys2Proof.Proofs

open Sys2Proof Sys2Proof.Machine Sys2Proof.Laws

theorem exists_decodeOperand_of_wellFormed {i : Instr} (h : i.wellFormed = true) :
    ∃ o, i = decodeOperand o := by
  cases i with
  | pack x y z => exact ⟨.atEncoder x y z, rfl⟩
  | unpack w => exact ⟨.atDecoder w, rfl⟩
  | unorm | q15 | q16 | snorm => cases h

theorem wellFormed_decodeOperand (o : Operand) : (decodeOperand o).wellFormed = true := by
  cases o <;> rfl

theorem encode_decodeOperand (o : Operand) : encode (decodeOperand o) = some (o.port, o.bytes) := by
  cases o <;> rfl

/-- Settles O1: a well-formed instruction is what some operand selects, and an operand is read back from its bytes. -/
theorem decodeReadsBackEveryEncoding : Obligations.DecodeReadsBackEveryEncoding := by
  intro i hi
  obtain ⟨o, rfl⟩ := exists_decodeOperand_of_wellFormed hi
  exact ⟨o.port, o.bytes, encode_decodeOperand o, decode_bytes o⟩

theorem toNat_append_eq_add {n m : Nat} (a : BitVec n) (b : BitVec m) :
    (a ++ b).toNat = a.toNat * 2 ^ m + b.toNat := by
  rw [BitVec.toNat_append, ← Nat.shiftLeft_add_eq_or_of_lt b.isLt, Nat.shiftLeft_eq]

/-- The other direction of `wordOfBytes_slices`. -/
theorem bytesOfWord_wordOfBytes (b0 b1 b2 b3 : Byte) : bytesOfWord (wordOfBytes b0 b1 b2 b3) = [b0, b1, b2, b3] := by
  simp only [bytesOfWord, List.cons.injEq, ← BitVec.toNat_inj, toNat_slice, wordOfBytes, toNat_append_eq_add]
  refine ⟨?_, ?_, ?_, ?_, trivial⟩ <;> omega

/-- The other direction of `operandOfBytes_bytes`. -/
theorem eq_bytes_of_operandOfBytes {p : OperandPort} {bytes : List Byte} {o : Operand}
    (h : operandOfBytes p bytes = .ok o) : p = o.port ∧ bytes = o.bytes := by
  unfold operandOfBytes at h
  split at h
  · cases h; simp [Operand.port, Operand.bytes, bytesOfWord_wordOfBytes]
  · cases h; simp [Operand.port, Operand.bytes, bytesOfWord_wordOfBytes]
  · cases h

/-- The decoder reads an operand and answers what the operand selects. -/
theorem decode_ok_iff {p : OperandPort} {bytes : List Byte} {i : Instr} :
    decode p bytes = .ok i ↔ ∃ o, operandOfBytes p bytes = .ok o ∧ decodeOperand o = i := by
  unfold decode
  cases operandOfBytes p bytes <;> simp [Except.map]

/-- Settles O2: bytes are decoded only as the bytes of an operand at its own port. -/
theorem encodeReadsBackEveryDecoding : Obligations.EncodeReadsBackEveryDecoding := by
  intro p bytes i h
  obtain ⟨o, ho, rfl⟩ := decode_ok_iff.mp h
  obtain ⟨rfl, rfl⟩ := eq_bytes_of_operandOfBytes ho
  exact ⟨encode_decodeOperand o, wellFormed_decodeOperand o⟩

end Sys2Proof.Proofs
end

section
/-! The settlement of O5: each of the three fields and each of their shift and mask forms is the same quotient and
remainder of the word's value. -/

namespace Sys2Proof.Proofs

open Sys2Proof Sys2Proof.Machine Sys2Proof.Laws

theorem toNat_and_lowMask (w : Word) : (w &&& 0xFFFF).toNat = w.toNat % 2 ^ 16 := by
  rw [BitVec.toNat_and]; exact Nat.and_two_pow_sub_one_eq_mod w.toNat 16

theorem toNat_and_one (w : Word) : (w &&& 1).toNat = w.toNat % 2 := by
  rw [BitVec.toNat_and]; exact Nat.and_one_is_mod w.toNat

/-- Settles O5. -/
theorem fieldExtractionFormsAgree : Obligations.FieldExtractionFormsAgree := by
  intro w
  refine ⟨rfl, rfl, rfl, ?_, ?_, ?_⟩
  · rw [fieldX_toNat, BitVec.toNat_ushiftRight, Nat.shiftRight_eq_div_pow]; omega
  · rw [fieldY_toNat, BitVec.toNat_ushiftRight, toNat_and_lowMask, Nat.shiftRight_eq_div_pow]; omega
  · rw [fieldS_toNat, toNat_and_one]

end Sys2Proof.Proofs
end

section
/-! The settlement of O3: the big-endian bytes of a table word are those of the operand whose bits it holds, and a
port reads an operand from exactly as many bytes as it has. -/

namespace Sys2Proof.Proofs

open Sys2Proof Sys2Proof.Machine Sys2Proof.Laws

theorem byte_of_word_of_table (n k v : Nat) (hk : k < 4) :
    (BitVec.ofNat 32 (v >>> (8 * n))).extractLsb' (8 * k) 8 = BitVec.ofNat 8 (v >>> (8 * (n + k))) := by
  apply BitVec.eq_of_getLsbD_eq
  intro i hi
  have hlow : 8 * k + i < 32 := by omega
  simp only [BitVec.getLsbD_extractLsb', BitVec.getLsbD_ofNat, Nat.testBit_shiftRight, hi, hlow, Nat.mul_add,
    Nat.add_assoc, decide_true, Bool.true_and]

/-- Four bytes of a table word are one word of it. -/
theorem tableBytes_add_four (n v : Nat) :
    tableBytes (n + 4) v = bytesOfWord (BitVec.ofNat 32 (v >>> (8 * n))) ++ tableBytes n v := by
  simp only [bytesOfWord, tableBytes, List.cons_append, List.nil_append, List.cons.injEq, and_true]
  exact ⟨(byte_of_word_of_table n 3 v (by omega)).symm, (byte_of_word_of_table n 2 v (by omega)).symm,
    (byte_of_word_of_table n 1 v (by omega)).symm, (byte_of_word_of_table n 0 v (by omega)).symm⟩

/-- A table word of a port's width with an operand's bytes is decoded to what the operand selects. -/
theorem decodeTableWord_of_bytes {nbits w : Nat} (o : Operand) (hport : tablePort nbits = some o.port)
    (hbytes : tableBytes (nbits / 8) w = o.bytes) : decodeTableWord nbits w = some (decodeOperand o) := by
  simp [decodeTableWord, hport, hbytes, decode_bytes, Except.toOption]

theorem decodeTableWord_96 (w : BitVec 96) : decodeTableWord 96 w.toNat =
    some (.pack (w.extractLsb' 64 32) (w.extractLsb' 32 32) (w.extractLsb' 0 32)) := by
  refine decodeTableWord_of_bytes (.atEncoder _ _ _) rfl ?_
  rw [show 96 / 8 = 0 + 4 + 4 + 4 from rfl, tableBytes_add_four, tableBytes_add_four, tableBytes_add_four,
    tableBytes, List.append_nil, ← List.append_assoc]
  rfl

theorem decodeTableWord_32 (w : BitVec 32) : decodeTableWord 32 w.toNat = some (.unpack w) := by
  refine decodeTableWord_of_bytes (.atDecoder w) rfl ?_
  rw [show 32 / 8 = 0 + 4 from rfl, tableBytes_add_four, tableBytes, List.append_nil, Nat.mul_zero, Nat.shiftRight_zero,
    BitVec.ofNat_toNat, BitVec.setWidth_eq, Operand.bytes]

/-- As many bytes as the port has are an operand of it. -/
theorem operandOfBytes_of_length_eq {p : OperandPort} {bytes : List Byte} (h : bytes.length = portBytes p) :
    ∃ o, o.port = p ∧ operandOfBytes p bytes = .ok o := by
  cases p with
  | encoder => match bytes, h with | [_, _, _, _, _, _, _, _, _, _, _, _], _ => exact ⟨_, rfl, rfl⟩
  | decoder => match bytes, h with | [_, _, _, _], _ => exact ⟨_, rfl, rfl⟩

theorem operandOfBytes_of_length_ne {p : OperandPort} {bytes : List Byte} (h : bytes.length ≠ portBytes p) :
    operandOfBytes p bytes = .error (.byteCount p bytes.length) := by
  unfold operandOfBytes
  split
  · exact absurd rfl h
  · exact absurd rfl h
  · rfl

/-- The decoder reads any bytes of a port's length as an instruction of that port. -/
theorem decode_of_length_eq {p : OperandPort} {bytes : List Byte} (h : bytes.length = portBytes p) :
    ∃ o, o.port = p ∧ decode p bytes = .ok (decodeOperand o) := by
  obtain ⟨o, hport, ho⟩ := operandOfBytes_of_length_eq h
  exact ⟨o, hport, decode_ok_iff.mpr ⟨o, ho, rfl⟩⟩

theorem decode_of_length_ne {p : OperandPort} {bytes : List Byte} (h : bytes.length ≠ portBytes p) :
    decode p bytes = .error (.byteCount p bytes.length) := by
  simp [decode, operandOfBytes_of_length_ne h, Except.map]

/-- Settles O3: both widths are read word by word, and each port accepts bytes by their number alone. -/
theorem everyOperandPatternIsLegal : Obligations.EveryOperandPatternIsLegal := by
  refine ⟨decodeTableWord_96, decodeTableWord_32, fun bytes h => ?_, fun bytes h => ?_,
    fun bytes h => decode_of_length_ne h, fun bytes h => decode_of_length_ne h⟩
  · obtain ⟨o, hport, ho⟩ := decode_of_length_eq (p := .encoder) h
    cases o with
    | atEncoder x y z => exact ⟨x, y, z, ho⟩
    | atDecoder w => cases hport
  · obtain ⟨o, hport, ho⟩ := decode_of_length_eq (p := .decoder) h
    cases o with
    | atEncoder x y z => cases hport
    | atDecoder w => exact ⟨w, ho⟩

end Sys2Proof.Proofs
end

section
/-! The settlement of O41: the operand that an event presents and the bytes that are decoded are the same operand,
so the step and the decoder select the same operation (30_encoding.md R65). -/

namespace Sys2Proof.Proofs

open Sys2Proof Sys2Proof.Machine Sys2Proof.Laws

theorem step_presented {s : State} {e : Event} {rest : List Event} {o : Operand} (h : s.schedule = e :: rest)
    (ho : ({ s with schedule := rest } : State).presented e = some o) :
    step s = exec (decodeOperand o) { s with schedule := rest } := by
  simp [step, State.nextEvent, h, State.begun, ho]

@[simp] theorem presented_presentEvent (s : State) (o : Operand) : s.presented (presentEvent o) = some o := by
  cases o <;> rfl

theorem step_presentNext (s : State) (o : Operand) : step (s.presentNext o) = exec (decodeOperand o) s :=
  step_presented (presentNext_schedule s o) (presented_presentEvent _ o)

/-- A table word is decoded to what its operand selects. -/
theorem decodeTableWord_eq_tableOperand (nbits w : Nat) :
    decodeTableWord nbits w = (tableOperand nbits w).map decodeOperand := by
  unfold decodeTableWord tableOperand decode
  cases tablePort nbits with
  | none => rfl
  | some p => cases h : operandOfBytes p (tableBytes (nbits / 8) w) <;> simp [h, Except.map, Except.toOption]

theorem withFetchWord_of_tableOperand {s : State} {nbits w : Nat} {o : Operand} (h : tableOperand nbits w = some o) :
    s.withFetchWord nbits w = s.presentNext o := by
  simp [State.withFetchWord, State.presentTableWord, h]

/-- Settles O41: either way the step runs what the operand in front of the schedule selects. -/
theorem stepRunsTheDecodedInstruction : Obligations.StepRunsTheDecodedInstruction := by
  refine ⟨fun s e rest o i hsched ho hi => ?_, fun s nbits w i hi => ?_⟩
  · rw [step_presented hsched ho]
    rw [decode_bytes] at hi
    cases hi; rfl
  · rw [decodeTableWord_eq_tableOperand] at hi
    obtain ⟨o, ho, rfl⟩ := Option.map_eq_some_iff.mp hi
    rw [withFetchWord_of_tableOperand ho, step_presentNext]

end Sys2Proof.Proofs
end

section
/-! Rounding of exact results whose size is known (40_primitives.md R81): with at most 24 significant bits nothing is
lost, and below a given power of two the error is at most half a step of the binade there. -/

namespace Sys2Proof.Proofs

open Sys2Proof Sys2Proof.Machine Sys2Proof.Laws

theorem binade_le {num den m : Nat} (hd : 0 < den) (h : num < 2 ^ (24 + m) * den) : binade num den ≤ m := by
  have hq : num / den < 2 ^ (24 + m) := (Nat.div_lt_iff_lt_mul hd).mpr h
  have hlog : Nat.log2 (num / den) < 24 + m := by
    rcases Nat.eq_zero_or_pos (num / den) with h0 | h0
    · rw [h0, Nat.log2_zero]; omega
    · exact (Nat.log2_lt h0.ne').mpr hq
  unfold binade; omega

/-- Below 2^276 units nothing overflows. -/
theorem units_roundF32_of_lt (s : Bool) {num den m : Nat} (hd : 0 < den) (hm : m ≤ 252)
    (h : num < 2 ^ (24 + m) * den) : isFinite (roundF32 s num den) = true ∧
      units (roundF32 s num den) = roundedSignificand num den * 2 ^ binade num den := by
  have hb := binade_le hd h
  have hsig := roundedSignificand_le num den hd
  exact units_roundF32 s num den hd (by omega)

/-- `a` is the finite datum of sign `s` and `u` units. -/
structure IsDatum (a : F32) (s : Bool) (u : Nat) : Prop where
  finite : isFinite a = true
  sign : signBit a = s
  magnitude : units a = u

/-- A magnitude of at most 24 significant bits is not changed by rounding. -/
theorem isDatum_roundF32_exact (s : Bool) {k j den : Nat} (hd : 0 < den) (hk : k < 2 ^ 24) (hj : j ≤ 252) :
    IsDatum (roundF32 s (k * 2 ^ j * den) den) s (k * 2 ^ j) := by
  have hlt : k * 2 ^ j * den < 2 ^ (24 + j) * den := by
    rw [pow_add]
    exact Nat.mul_lt_mul_of_pos_right (Nat.mul_lt_mul_of_pos_right hk (by positivity)) hd
  obtain ⟨hfin, hunits⟩ := units_roundF32_of_lt s hd hj hlt
  obtain ⟨i, hi⟩ := Nat.exists_eq_add_of_le' (binade_le hd hlt)
  have hpow : 2 ^ j = 2 ^ i * 2 ^ binade (k * 2 ^ j * den) den := by rw [← pow_add, ← hi]
  have hnum : k * 2 ^ j * den = k * 2 ^ i * (den * 2 ^ binade (k * 2 ^ j * den) den) := by
    linear_combination k * den * hpow
  have hsig : roundedSignificand (k * 2 ^ j * den) den = k * 2 ^ i :=
    (congrArg (roundHalfEven · _) hnum).trans (roundHalfEven_mul _ _ (by positivity))
  exact ⟨hfin, signBit_roundF32 _ _ _, by rw [hunits, hsig, Nat.mul_assoc, ← hpow]⟩

/-- As `isDatum_roundF32_exact`, for a whole number of units. -/
theorem isDatum_roundF32_whole (s : Bool) {k j : Nat} (hk : k < 2 ^ 24) (hj : j ≤ 252) :
    IsDatum (roundF32 s (k * 2 ^ j) 1) s (k * 2 ^ j) := by
  simpa using isDatum_roundF32_exact s Nat.one_pos hk hj

/-- Below 2^(24 + m) units the error of rounding is at most half of 2^m units. -/
theorem isDatum_roundF32_near (s : Bool) {num den m : Nat} (hd : 0 < den) (hm : m ≤ 252)
    (h : num < 2 ^ (24 + m) * den) : ∃ u, IsDatum (roundF32 s num den) s u ∧
      2 * num ≤ (2 * u + 2 ^ m) * den ∧ 2 * u * den ≤ 2 * num + den * 2 ^ m := by
  obtain ⟨hfin, hunits⟩ := units_roundF32_of_lt s hd hm h
  obtain ⟨hlo, hhi⟩ := roundedSignificand_near num den hd
  have hstep : den * 2 ^ binade num den ≤ den * 2 ^ m :=
    Nat.mul_le_mul_left _ (Nat.pow_le_pow_right (by norm_num) (binade_le hd h))
  exact ⟨_, ⟨hfin, signBit_roundF32 _ _ _, hunits⟩, by nlinarith, by nlinarith⟩

/-- As `isDatum_roundF32_near`, for a whole number of units. -/
theorem isDatum_roundF32_near_whole (s : Bool) {v den m : Nat} (hd : 0 < den) (hm : m ≤ 252) (h : v < 2 ^ (24 + m)) :
    ∃ u, IsDatum (roundF32 s (v * den) den) s u ∧ 2 * v ≤ 2 * u + 2 ^ m ∧ 2 * u ≤ 2 * v + 2 ^ m := by
  obtain ⟨u, hu, hlo, hhi⟩ := isDatum_roundF32_near s hd hm (Nat.mul_lt_mul_of_pos_right h hd)
  exact ⟨u, hu, Nat.le_of_mul_le_mul_right (by linarith) hd, Nat.le_of_mul_le_mul_right (by linarith) hd⟩

theorem IsDatum.signedUnits_eq {a : F32} {s : Bool} {u : Nat} (h : IsDatum a s u) :
    signedUnits a = if s then -(u : Int) else (u : Int) := by
  rw [signedUnits, h.sign, h.magnitude]

theorem IsDatum.fmul_eq {a b : F32} {s t : Bool} {u v : Nat} (ha : IsDatum a s u) (hb : IsDatum b t v) :
    fmul a b = roundF32 (s != t) (u * v) (2 ^ 149) := by
  rw [fmul_finite ha.finite hb.finite, ha.sign, hb.sign, ha.magnitude, hb.magnitude]

theorem isDatum_fOne : IsDatum fOne false (2 ^ 149) := ⟨by decide, by decide, by decide⟩
theorem isDatum_fNegOne : IsDatum fNegOne true (2 ^ 149) := ⟨by decide, by decide, by decide⟩
theorem isDatum_fHalf : IsDatum fHalf false (2 ^ 148) := ⟨by decide, by decide, by decide⟩
theorem isDatum_fKX : IsDatum fKX false (Config.kx * 2 ^ 149) := ⟨by decide, by decide, by decide⟩
theorem isDatum_fKY : IsDatum fKY false (Config.ky * 2 ^ 149) := ⟨by decide, by decide, by decide⟩

end Sys2Proof.Proofs
end

section
/-! What the quantizers give (40_primitives.md R93, R94, R96, R97): the code nearest to the scaled input, when the
scaled input is well inside half a step of it. -/

namespace Sys2Proof.Proofs

open Sys2Proof Sys2Proof.Machine Sys2Proof.Laws

/-- A datum within half of the integer `c`, the lower end included, is rounded to it. -/
theorem IsDatum.rndAway_of_near {r : F32} {s : Bool} {u c : Nat} (h : IsDatum r s u) (hc : c < 2 ^ 24)
    (hlo : c * 2 ^ 150 ≤ 2 * u + 2 ^ 149) (hhi : 2 * u + 2 ^ 149 < (c + 1) * 2 ^ 150) :
    IsDatum (rndAway r) s (c * 2 ^ 149) := by
  have hquot : (2 * u + 2 ^ 149) / 2 ^ 150 = c := Nat.div_eq_of_lt_le hlo hhi
  rw [rndAway_finite h.finite, h.sign, h.magnitude, hquot]
  exact isDatum_roundF32_whole s hc (by norm_num)

/-- An integer is converted to itself. -/
theorem IsDatum.f2uSat_eq {r : F32} {c : Nat} (h : IsDatum r false (c * 2 ^ 149)) (hc : c < 2 ^ 32) :
    f2uSat r = BitVec.ofNat 32 c := by
  rw [f2uSat, isNaN_of_isFinite h.finite, h.sign, h.magnitude, Bool.false_or]
  by_cases h0 : isZero r = true
  · obtain rfl : c = 0 := by simpa [h.magnitude] using (isZero_iff_units r).mp h0
    simp [h0]
  · have hsmall : ¬ 2 ^ 32 * 2 ^ 149 ≤ c * 2 ^ 149 := by omega
    rw [if_neg Bool.false_ne_true, if_neg h0, if_neg hsmall, Nat.mul_div_cancel _ (by positivity)]

/-- The input k / 2^23 is quantized with scale K to `c` when k·K / 2^23 is within K / 2^23 of it: rounding the
product moves it by at most 2^-8 further. -/
theorem quantize_of_near {f scale : F32} {k K c : Nat} (hf : IsDatum f false (k * 2 ^ 126))
    (hscale : IsDatum scale false (K * 2 ^ 149)) (hk : k ≤ 2 ^ 23) (hK : K < 2 ^ 16) (hc : c ≤ K)
    (hlo : c * 2 ^ 23 ≤ k * K + K) (hhi : k * K ≤ c * 2 ^ 23 + K) :
    f2uSat (rndAway (fmul f scale)) = BitVec.ofNat 32 c := by
  have hprod : k * 2 ^ 126 * (K * 2 ^ 149) = k * K * 2 ^ 126 * 2 ^ 149 := by ring
  have hkK : k * K ≤ 2 ^ 23 * 2 ^ 16 := Nat.mul_le_mul hk hK.le
  obtain ⟨u, hu, hulo, huhi⟩ := isDatum_roundF32_near_whole false (v := k * K * 2 ^ 126) (den := 2 ^ 149) (m := 142)
    (by positivity) (by norm_num) (by omega)
  have hround : IsDatum (fmul f scale) false u := by rwa [hf.fmul_eq hscale, hprod, bne_self_eq_false]
  exact (hround.rndAway_of_near (by omega) (by linarith) (by linarith)).f2uSat_eq (by omega)

end Sys2Proof.Proofs
end

section
/-! The settlement of O38: for every code there is a component in domain that quantizes to it. It is taken from the
multiples of 2^-22 in [-1, 1], where UNORM rounds nothing, and these lie close enough for every code to be met. -/

namespace Sys2Proof.Proofs

open Sys2Proof Sys2Proof.Machine Sys2Proof.Laws

/-- The component k / 2^22 - 1. -/
def gridComponent (k : Nat) : F32 :=
  roundF32 (decide ((k : Int) < 2 ^ 22)) (((k : Int) - 2 ^ 22).natAbs * 2 ^ 127) 1

theorem isDatum_gridComponent {k : Nat} (hk : k ≤ 2 ^ 23) : IsDatum (gridComponent k)
    (decide ((k : Int) < 2 ^ 22)) (((k : Int) - 2 ^ 22).natAbs * 2 ^ 127) :=
  isDatum_roundF32_whole _ (by omega) (by norm_num)

theorem signedUnits_gridComponent {k : Nat} (hk : k ≤ 2 ^ 23) :
    signedUnits (gridComponent k) = ((k : Int) - 2 ^ 22) * 2 ^ 127 := by
  rw [(isDatum_gridComponent hk).signedUnits_eq]
  split
  next h => rw [decide_eq_true_eq] at h; omega
  next h => rw [decide_eq_true_eq] at h; omega

theorem componentInDomain_gridComponent {k : Nat} (hk : k ≤ 2 ^ 23) :
    componentInDomain (gridComponent k) = true := by
  simp only [componentInDomain, inClosed, isNaN_of_isFinite (isDatum_gridComponent hk).finite,
    signedUnits_gridComponent hk, isDatum_fOne.signedUnits_eq, isDatum_fNegOne.signedUnits_eq,
    Bool.not_false, Bool.true_and, Bool.and_eq_true, decide_eq_true_eq, if_true, Bool.false_eq_true, if_false]
  omega

theorem isDatum_unorm_gridComponent {k : Nat} (hpos : 0 < k) (hk : k ≤ 2 ^ 23) :
    IsDatum (unorm (gridComponent k)) false (k * 2 ^ 126) := by
  have hsum : signedUnits (gridComponent k) + signedUnits fOne = ((k * 2 ^ 127 : Nat) : Int) := by
    rw [signedUnits_gridComponent hk, isDatum_fOne.signedUnits_eq, if_neg Bool.false_ne_true]
    omega
  have hadd : fadd (gridComponent k) fOne = roundF32 false (k * 2 ^ 127) 1 := by
    rw [fadd_finite (isDatum_gridComponent hk).finite isDatum_fOne.finite, faddFinite_round (by omega), hsum,
      decide_eq_false (by omega), Int.natAbs_natCast]
  have hdatum : IsDatum (fadd (gridComponent k) fOne) false (k * 2 ^ 127) := by
    rw [hadd]
    exact isDatum_roundF32_whole _ (by omega) (by norm_num)
  rw [unorm, hdatum.fmul_eq isDatum_fHalf, bne_self_eq_false,
    show k * 2 ^ 127 * 2 ^ 148 = k * 2 ^ 126 * 2 ^ 149 by ring]
  exact isDatum_roundF32_exact _ (by positivity) (by omega) (by norm_num)

/-- The place on the grid for code `c` of `K`: 1 for code 0, so that UNORM never adds up to a zero, and 2^23 for
code K. -/
def gridIndex (K c : Nat) : Nat := c * (2 ^ 23 - 1) / K + 1

theorem gridIndex_pos (K c : Nat) : 0 < gridIndex K c := Nat.succ_pos _

theorem gridIndex_le {K c : Nat} (hc : c ≤ K) : gridIndex K c ≤ 2 ^ 23 := by
  have := Nat.div_le_of_le_mul (Nat.mul_le_mul_right (2 ^ 23 - 1) hc)
  unfold gridIndex; omega

theorem gridIndex_near {K c : Nat} (hK : 0 < K) (hc : c ≤ K) :
    c * 2 ^ 23 ≤ gridIndex K c * K + K ∧ gridIndex K c * K ≤ c * 2 ^ 23 + K := by
  have hdiv := Nat.div_add_mod' (c * (2 ^ 23 - 1)) K
  have hmod := Nat.mod_lt (c * (2 ^ 23 - 1)) hK
  rw [gridIndex, Nat.add_mul]
  omega

/-- The component in domain that quantizes to code `c` with scale `K`. -/
def componentOfCode (K c : Nat) : F32 := gridComponent (gridIndex K c)

theorem componentInDomain_componentOfCode {K c : Nat} (hc : c ≤ K) : componentInDomain (componentOfCode K c) = true :=
  componentInDomain_gridComponent (gridIndex_le hc)

theorem quantize_componentOfCode {scale : F32} {K c : Nat} (hscale : IsDatum scale false (K * 2 ^ 149)) (hK : 0 < K)
    (hK' : K < 2 ^ 16) (hc : c ≤ K) :
    f2uSat (rndAway (fmul (unorm (componentOfCode K c)) scale)) = BitVec.ofNat 32 c := by
  obtain ⟨hlo, hhi⟩ := gridIndex_near hK hc
  exact quantize_of_near (isDatum_unorm_gridComponent (gridIndex_pos K c) (gridIndex_le hc)) hscale
    (gridIndex_le hc) hK' hc hlo hhi

theorem q16_unorm_componentOfCode (c : BitVec 16) :
    q16 (unorm (componentOfCode Config.kx c.toNat)) = c.setWidth 32 := by
  rw [q16, quantize_componentOfCode isDatum_fKX (by decide) (by decide) (Nat.le_of_lt_succ c.isLt), BitVec.ofNat_toNat]

/-- The Q15 mask drops nothing of a y code. -/
theorem q15_unorm_componentOfCode (c : BitVec 15) :
    q15 (unorm (componentOfCode Config.ky c.toNat)) = c.setWidth 16 := by
  rw [q15, quantize_componentOfCode isDatum_fKY (by decide) (by decide) (Nat.le_of_lt_succ c.isLt), BitVec.ofNat_toNat]
  apply BitVec.eq_of_toNat_eq
  rw [toNat_slice, Config.q15Mask, toNat_and_lowMask, BitVec.toNat_setWidth, BitVec.toNat_setWidth]
  omega

theorem extractLsb'_setWidth {n m : Nat} (c : BitVec n) (h : n ≤ m) : (c.setWidth m).extractLsb' 0 n = c := by
  have hlt : c.toNat < 2 ^ m := c.isLt.trans_le (Nat.pow_le_pow_right Nat.two_pos h)
  apply BitVec.eq_of_toNat_eq
  rw [BitVec.extractLsb'_toNat, BitVec.toNat_setWidth, Nat.shiftRight_zero, Nat.mod_eq_of_lt hlt,
    Nat.mod_eq_of_lt c.isLt]

/-- A word is its three fields. -/
theorem eq_of_fields_eq {w w' : Word} (hx : fieldX w = fieldX w') (hy : fieldY w = fieldY w')
    (hs : fieldS w = fieldS w') : w = w' := by
  have hx' := congrArg BitVec.toNat hx
  have hy' := congrArg BitVec.toNat hy
  have hs' := congrArg Bool.toNat hs
  rw [fieldX_toNat, fieldX_toNat] at hx'
  rw [fieldY_toNat, fieldY_toNat] at hy'
  rw [fieldS_toNat, fieldS_toNat] at hs'
  exact BitVec.eq_of_toNat_eq (by omega)

theorem zSignFlag_of_flag (s : Bool) : zSignFlag (if s then fNegOne else fZero) = s := by
  cases s <;> decide

/-- Settles O38: each field of the word has its own component. -/
theorem everyWordIsAPackResult : Obligations.EveryWordIsAPackResult := by
  intro w
  refine ⟨⟨componentOfCode Config.kx (fieldX w).toNat, componentOfCode Config.ky (fieldY w).toNat,
    if fieldS w then fNegOne else fZero⟩, ?_, ?_⟩
  · exact Bool.and_eq_true_iff.mpr ⟨componentInDomain_componentOfCode (Nat.le_of_lt_succ (fieldX w).isLt),
      componentInDomain_componentOfCode (Nat.le_of_lt_succ (fieldY w).isLt)⟩
  · refine eq_of_fields_eq ?_ ?_ ?_
    · rw [fieldX_packWord, q16_unorm_componentOfCode, extractLsb'_setWidth _ (by omega)]
    · rw [fieldY_packWord, q15_unorm_componentOfCode, extractLsb'_setWidth _ (by omega)]
    · rw [fieldS_packWord, zSignFlag_of_flag]

end Sys2Proof.Proofs
end

section
/-! The order of the data (40_primitives.md R80): the exponent field gives a magnitude to within a factor of two, so
sign and magnitude determine a datum, and the classes are ranges of the magnitude. -/

namespace Sys2Proof.Proofs

open Sys2Proof Sys2Proof.Machine Sys2Proof.Laws

theorem signBit_toNat (a : F32) : (signBit a).toNat = a.toNat / 2 ^ 31 := by
  have hlt := a.isLt
  rw [signBit, BitVec.getLsbD, Nat.testBit_eq_decide_div_mod_eq]
  obtain h | h : a.toNat / 2 ^ 31 = 0 ∨ a.toNat / 2 ^ 31 = 1 := by omega
  all_goals rw [h]; rfl

theorem expField_eq_div (a : F32) : expField a = a.toNat / 2 ^ 23 % 2 ^ 8 := toNat_slice a 23 8

theorem fracField_eq_mod (a : F32) : fracField a = a.toNat % 2 ^ 23 := by
  rw [fracField, toNat_slice, pow_zero, Nat.div_one]

/-- A datum is its sign, exponent and fraction. -/
theorem eq_of_parts_eq {a b : F32} (hs : signBit a = signBit b) (he : expField a = expField b)
    (hf : fracField a = fracField b) : a = b := by
  have hs' := congrArg Bool.toNat hs
  rw [signBit_toNat, signBit_toNat] at hs'
  rw [expField_eq_div, expField_eq_div] at he
  rw [fracField_eq_mod, fracField_eq_mod] at hf
  exact BitVec.eq_of_toNat_eq (by omega)

/-! ### Magnitude and exponent -/

theorem units_lt_exp (a : F32) : units a < 2 ^ (23 + expField a) := by
  have hsig := significand_lt a
  have hfrac := fracField_lt a
  rcases Nat.eq_zero_or_pos (expField a) with h | h
  · simpa [units, significand, h] using hfrac
  · calc units a < 2 ^ 24 * 2 ^ (expField a - 1) := Nat.mul_lt_mul_of_pos_right hsig (by positivity)
      _ = 2 ^ (23 + expField a) := by rw [← pow_add]; congr 1; omega

theorem le_units_exp {a : F32} (h : 0 < expField a) : 2 ^ (22 + expField a) ≤ units a := by
  calc 2 ^ (22 + expField a) = 2 ^ 23 * 2 ^ (expField a - 1) := by rw [← pow_add]; congr 1; omega
    _ ≤ units a := Nat.mul_le_mul_right _ (by rw [significand, if_neg h.ne']; omega)

/-- The exponent field is at most that of any power of two above the magnitude. -/
theorem expField_le_of_units_lt {a : F32} {k : Nat} (h : units a < 2 ^ k) : expField a ≤ k - 23 := by
  rcases Nat.eq_zero_or_pos (expField a) with h0 | h0
  · omega
  · have := (Nat.pow_lt_pow_iff_right Nat.one_lt_two).mp ((le_units_exp h0).trans_lt h)
    omega

/-- The exponent field is above that of any power of two up to the magnitude. -/
theorem lt_expField_of_le_units {a : F32} {k : Nat} (h : 2 ^ k ≤ units a) : k < 23 + expField a :=
  (Nat.pow_lt_pow_iff_right Nat.one_lt_two).mp (h.trans_lt (units_lt_exp a))

/-- The largest magnitude below a power of two has 24 one bits. -/
theorem units_le_of_lt {a : F32} {m : Nat} (h : units a < 2 ^ (24 + m)) : units a ≤ (2 ^ 24 - 1) * 2 ^ m := by
  have he := expField_le_of_units_lt h
  have hsig := significand_lt a
  exact Nat.mul_le_mul (by omega) (Nat.pow_le_pow_right Nat.two_pos (by omega))

/-- Sign and magnitude determine a datum, of whatever class. -/
theorem eq_of_signBit_units_eq {a b : F32} (hs : signBit a = signBit b) (hu : units a = units b) : a = b := by
  have hle := expField_le_of_units_lt (hu ▸ units_lt_exp b)
  have hge := expField_le_of_units_lt (hu.symm ▸ units_lt_exp a)
  have he : expField a = expField b := by omega
  rw [units, units, he] at hu
  have hsig : significand a = significand b := Nat.eq_of_mul_eq_mul_right (by positivity) hu
  rw [significand, significand, he] at hsig
  refine eq_of_parts_eq hs he ?_
  split at hsig <;> omega

theorem IsDatum.eq {a b : F32} {s : Bool} {u : Nat} (ha : IsDatum a s u) (hb : IsDatum b s u) : a = b :=
  eq_of_signBit_units_eq (ha.sign.trans hb.sign.symm) (ha.magnitude.trans hb.magnitude.symm)

/-! ### Magnitude and class -/

theorem isInf_iff_units (a : F32) : isInf a = true ↔ units a = 2 ^ 277 := by
  constructor
  · intro h
    obtain ⟨he, hf⟩ : expField a = 255 ∧ fracField a = 0 := by simpa [isInf] using h
    rw [units, significand, he, hf, if_neg (by norm_num), Nat.add_zero, ← pow_add]
  · intro h
    have he : expField a = 255 := by
      have hlt := lt_expField_of_le_units h.ge
      have := expField_lt a
      omega
    have hf : fracField a = 0 := by
      rw [units, significand, he, if_neg (by norm_num)] at h
      omega
    simp [isInf, he, hf]

theorem isInf_infinity (s : Bool) : isInf (infinity s) = true := by cases s <;> decide

@[simp] theorem signBit_infinity (s : Bool) : signBit (infinity s) = s := signBit_ofSignMag _ _

theorem eq_infinity_of_isInf {a : F32} (h : isInf a = true) : a = infinity (signBit a) :=
  eq_of_signBit_units_eq (signBit_infinity _).symm
    (((isInf_iff_units a).mp h).trans ((isInf_iff_units _).mp (isInf_infinity _)).symm)

theorem isNaN_of_isInf {a : F32} (h : isInf a = true) : isNaN a = false := by
  simp_all [isInf, isNaN]

theorem isFinite_of_isInf {a : F32} (h : isInf a = true) : isFinite a = false := by
  simp_all [isInf, isFinite]

theorem isInf_or_isFinite {a : F32} (h : isNaN a = false) : isInf a = true ∨ isFinite a = true := by
  obtain ⟨hnan, -, -⟩ | ⟨-, hinf, -⟩ | ⟨-, -, hfin⟩ := class_cases a
  · simp [h] at hnan
  · exact .inl hinf
  · exact .inr hfin

/-- Only a NaN has more units than an infinity. -/
theorem units_le_of_not_isNaN {a : F32} (h : isNaN a = false) : units a ≤ 2 ^ 277 := by
  obtain hinf | hfin := isInf_or_isFinite h
  · exact ((isInf_iff_units a).mp hinf).le
  · exact (units_lt_of_isFinite hfin).le

end Sys2Proof.Proofs
end

section
/-! The settlement of O8: on the grid of its binade an exact magnitude goes to the nearest point, a tie to the even
one; every datum is on that grid or below its first normal point, so none is nearer (40_primitives.md R81). -/

namespace Sys2Proof.Proofs

open Sys2Proof Sys2Proof.Machine Sys2Proof.Laws

/-! ### The binade -/

theorem le_of_binade_pos {num den : Nat} (h : 0 < binade num den) : 2 ^ (23 + binade num den) * den ≤ num := by
  have hq : num / den ≠ 0 := by
    intro h0
    simp [binade, h0] at h
  have he : 23 + binade num den = Nat.log2 (num / den) := by unfold binade at *; omega
  rw [he]
  exact (Nat.mul_le_mul_right _ (Nat.log2_self_le hq)).trans (Nat.div_mul_le_self num den)

theorem le_binade {num den k : Nat} (hd : 0 < den) (h : 2 ^ (23 + k) * den ≤ num) : k ≤ binade num den := by
  have hq : 2 ^ (23 + k) ≤ num / den := (Nat.le_div_iff_mul_le hd).mpr h
  have hlog := (Nat.le_log2 (Nat.two_pow_pos (23 + k) |>.trans_le hq).ne').mpr hq
  unfold binade; omega

/-- But for a tie, `roundHalfEven` is within less than half of the exact quotient. -/
theorem roundHalfEven_nearer {num den : Nat} (hd : 0 < den) (h : 2 * (num % den) ≠ den) :
    2 * num < (2 * roundHalfEven num den + 1) * den ∧ 2 * roundHalfEven num den * den < 2 * num + den := by
  have hdm := Nat.div_add_mod num den
  have hlt := Nat.mod_lt num hd
  simp only [roundHalfEven]
  generalize num / den = q at *
  generalize num % den = r at *
  split
  · constructor <;> nlinarith
  · rw [if_pos (by omega)]
    have hr : den < 2 * r := by omega
    constructor <;> nlinarith

/-- At half a step from the exact quotient, `roundHalfEven` is even. -/
theorem roundHalfEven_even_of_half {num den : Nat} (hd : 0 < den)
    (h : 2 * num = (2 * roundHalfEven num den + 1) * den ∨ 2 * roundHalfEven num den * den = 2 * num + den) :
    roundHalfEven num den % 2 = 0 := by
  by_contra hodd
  obtain ⟨hlo, hhi⟩ := roundHalfEven_nearer hd (mt (roundHalfEven_tie num den) hodd)
  omega

/-! ### Overflow -/

/-- From 2^128 - 2^103, halfway between the largest datum and 2^128, the pattern is that of infinity. -/
theorem overflow_iff {num den : Nat} (hd : 0 < den) :
    0x7F800000 ≤ binade num den * 2 ^ 23 + roundedSignificand num den ↔ (2 ^ 25 - 1) * 2 ^ 252 * den ≤ num := by
  have hsig := roundedSignificand_le num den hd
  obtain ⟨hlo, hhi⟩ := roundedSignificand_near num den hd
  constructor
  · intro h
    by_contra hnum
    have hb : binade num den ≤ 253 := binade_le hd (by omega)
    have hb' : binade num den = 253 := by omega
    have hm : roundedSignificand num den = 2 ^ 24 := by omega
    rw [hb', hm] at hhi
    omega
  · intro h
    have hb : 253 ≤ binade num den := le_binade hd (by omega)
    have hnormal := le_roundedSignificand num den hd (by omega)
    rcases hb.eq_or_lt with hb | hb
    · have hodd : roundedSignificand num den ≠ 2 ^ 24 - 1 := by
        intro hm
        have heven : roundedSignificand num den % 2 = 0 :=
          roundHalfEven_even_of_half (by positivity) (.inl (le_antisymm hlo (by
            rw [show roundHalfEven num (den * 2 ^ binade num den) = 2 ^ 24 - 1 from hm, ← hb]; omega)))
        omega
      have hm : 2 * (2 ^ 24 - 1) + 1 ≤ 2 * roundedSignificand num den + 1 := by
        refine Nat.le_of_mul_le_mul_right (c := den * 2 ^ 253) ?_ (by positivity)
        rw [← hb] at hlo
        omega
      omega
    · omega

/-! ### The nearest datum -/

/-- Every datum is on the grid of a binade, or below the first normal point of it. -/
theorem dvd_units_or_units_lt (v : F32) (e : Nat) : 2 ^ e ∣ units v ∨ 0 < e ∧ units v < 2 ^ (23 + e) := by
  rcases Nat.lt_or_ge (expField v - 1) e with h | h
  · exact .inr ⟨by omega, (units_lt_exp v).trans_le (Nat.pow_le_pow_right Nat.two_pos (by omega))⟩
  · exact .inl (Dvd.dvd.mul_left (pow_dvd_pow 2 h) _)

/-- The exact magnitude is within half a step of the rounded one. -/
theorem abs_sub_rounded_le {num den : Nat} (hd : 0 < den) :
    |(num : ℝ) / den - roundedSignificand num den * 2 ^ binade num den| ≤ 2 ^ binade num den / 2 := by
  obtain ⟨hlo, hhi⟩ := roundedSignificand_near num den hd
  have hd' : (0 : ℝ) < den := by exact_mod_cast hd
  have hlo' : (2 * num : ℝ) ≤ (2 * roundedSignificand num den + 1) * (den * 2 ^ binade num den) := by
    exact_mod_cast hlo
  have hhi' : (2 * roundedSignificand num den * (den * 2 ^ binade num den) : ℝ)
      ≤ 2 * num + den * 2 ^ binade num den := by exact_mod_cast hhi
  have hx : (num : ℝ) / den * den = num := div_mul_cancel₀ _ hd'.ne'
  rw [abs_le]
  constructor <;> refine le_of_mul_le_mul_right ?_ hd' <;> linarith

/-- Any other point of a grid is as far from a magnitude as the near one at least, and as far only from the middle of
a step. -/
theorem grid_point_not_nearer {x g : ℝ} {m : Nat} (h : |x - m * g| ≤ g / 2) (k : Nat) :
    |x - m * g| ≤ |x - k * g| ∧ (|x - m * g| = |x - k * g| → k ≠ m → |x - m * g| = g / 2) := by
  by_cases hk : k = m
  · exact ⟨by rw [hk], fun _ hne => absurd hk hne⟩
  have hg : 0 ≤ g := by linarith [abs_nonneg (x - m * g)]
  have hstep : (1 : ℝ) ≤ |(m : ℝ) - k| := by
    exact_mod_cast Int.one_le_abs (sub_ne_zero.mpr (Nat.cast_injective.ne (Ne.symm hk) : (m : ℤ) ≠ k))
  have hgap : g ≤ |x - m * g| + |x - k * g| := calc
    g ≤ |(m : ℝ) - k| * |g| := by rw [abs_of_nonneg hg]; exact le_mul_of_one_le_left hg hstep
    _ = |(x - k * g) - (x - m * g)| := by rw [← abs_mul]; congr 1; ring
    _ ≤ |x - m * g| + |x - k * g| := (abs_sub _ _).trans_eq (add_comm _ _)
  exact ⟨by linarith, fun heq _ => by linarith⟩

/-- In the middle of a step the rounded significand is even. -/
theorem roundedSignificand_even {num den : Nat} (hd : 0 < den)
    (h : |(num : ℝ) / den - roundedSignificand num den * 2 ^ binade num den| = 2 ^ binade num den / 2) :
    roundedSignificand num den % 2 = 0 := by
  have hd' : (den : ℝ) ≠ 0 := by exact_mod_cast hd.ne'
  have hx : (num : ℝ) / den * den = num := div_mul_cancel₀ _ hd'
  refine roundHalfEven_even_of_half (by positivity) ?_
  change 2 * num = (2 * roundedSignificand num den + 1) * (den * 2 ^ binade num den) ∨
    2 * roundedSignificand num den * (den * 2 ^ binade num den) = 2 * num + den * 2 ^ binade num den
  rcases eq_or_eq_neg_of_abs_eq h with h | h
  · left
    rify
    linear_combination 2 * (den : ℝ) * h - 2 * hx
  · right
    rify
    linear_combination -2 * (den : ℝ) * h + 2 * hx

/-- No datum is nearer than the rounded one, and none as near if the rounded significand is odd. -/
theorem rounded_nearest {num den : Nat} (hd : 0 < den) (v : F32) :
    |(num : ℝ) / den - roundedSignificand num den * 2 ^ binade num den| ≤ |(num : ℝ) / den - units v| ∧
    (|(num : ℝ) / den - roundedSignificand num den * 2 ^ binade num den| = |(num : ℝ) / den - units v| →
      units v ≠ roundedSignificand num den * 2 ^ binade num den → roundedSignificand num den % 2 = 0) := by
  have hgrid := grid_point_not_nearer (abs_sub_rounded_le (num := num) hd)
  obtain ⟨k, hk⟩ | ⟨hpos, hlt⟩ := dvd_units_or_units_lt v (binade num den)
  · rw [show (units v : ℝ) = k * 2 ^ binade num den by rw [hk]; push_cast; ring]
    obtain ⟨hle, htie⟩ := hgrid k
    refine ⟨hle, fun heq hne => roundedSignificand_even hd (htie heq ?_)⟩
    rintro rfl
    exact hne (hk.trans (mul_comm _ _))
  · have hfirst : (2 : ℝ) ^ 23 * 2 ^ binade num den ≤ num / den := by
      rw [le_div_iff₀ (by exact_mod_cast hd), ← pow_add]
      exact_mod_cast le_of_binade_pos hpos
    have hv : (units v : ℝ) < 2 ^ 23 * 2 ^ binade num den := by
      rw [← pow_add]
      exact_mod_cast hlt
    have hnear := (hgrid (2 ^ 23)).1
    rw [Nat.cast_pow, Nat.cast_ofNat, abs_of_nonneg (sub_nonneg.mpr hfirst)] at hnear
    rw [abs_of_pos (sub_pos.mpr (hv.trans_le hfirst))]
    exact ⟨by linarith, fun heq => by linarith⟩

theorem getLsbD_zero_ofSignMag (s : Bool) (p : Nat) : (ofSignMag s p).getLsbD 0 = decide (p % 2 = 1) := by
  have hfrac := fracField_ofSignMag s p
  rw [fracField_eq_mod] at hfrac
  rw [BitVec.getLsbD, Nat.testBit_zero, show (ofSignMag s p).toNat % 2 = p % 2 by omega]

/-- Settles O8: the rounded pattern is that of infinity from the overflow point up, and below it stands for the nearest
grid point; its bit 0 is that of the rounded significand. -/
theorem roundingIsNearestTiesToEven : Obligations.RoundingIsNearestTiesToEven := by
  intro s num den hd
  have hd' : (0 : ℝ) < den := by exact_mod_cast hd
  have hreal : ((2 : ℝ) ^ 128 - 2 ^ 103) * 2 ^ 149 ≤ (num : ℝ) / den ↔ (2 ^ 25 - 1) * 2 ^ 252 * den ≤ num := by
    rw [le_div_iff₀ hd', ← Nat.cast_le (α := ℝ)]
    norm_num
  refine ⟨isNaN_roundF32 s num den, signBit_roundF32 s num den, fun hbig => ?_, fun hsmall => ?_⟩
  · rw [roundF32_overflow s num den ((overflow_iff hd).mpr (hreal.mp hbig))]
    exact isInf_infinity s
  · have hp : binade num den * 2 ^ 23 + roundedSignificand num den < 0x7F800000 :=
      not_le.mp fun hover => hsmall.not_ge (hreal.mpr ((overflow_iff hd).mp hover))
    obtain ⟨hfin, hunits⟩ := units_roundF32 s num den hd hp
    refine ⟨hfin, fun v _ => ?_⟩
    obtain ⟨hle, htie⟩ := rounded_nearest (num := num) hd v
    rw [hunits]
    push_cast
    refine ⟨hle, fun heq hne => ?_⟩
    have heven := htie heq hne
    rw [roundF32, roundMagnitude_eq, getLsbD_zero_ofSignMag, decide_eq_false]
    omega

end Sys2Proof.Proofs
end

section
/-! The settlement of O13: the points where rounding changes are multiples of half a unit, so it does not see the
difference between the exact root and the middle of its half unit (40_primitives.md R86). -/

namespace Sys2Proof.Proofs

open Sys2Proof Sys2Proof.Machine Sys2Proof.Laws

/-- No multiple of half a unit tells `x` from `y`. -/
def SameHalfUnit (x y : ℝ) : Prop := ∀ k : Nat, (x < k / 2 ↔ y < k / 2) ∧ ((k : ℝ) / 2 < x ↔ (k : ℝ) / 2 < y)

/-- Which of two whole magnitudes is nearer is seen from their middle. -/
theorem abs_sub_le_abs_sub_iff (x : ℝ) (u v : Nat) : |x - u| ≤ |x - v| ↔
    u = v ∨ u < v ∧ ¬ ((u + v : Nat) : ℝ) / 2 < x ∨ v < u ∧ ¬ x < ((u + v : Nat) : ℝ) / 2 := by
  rw [← sq_le_sq]
  push_cast
  rcases lt_trichotomy u v with h | rfl | h
  · have h' : (u : ℝ) < v := by exact_mod_cast h
    simp only [h.ne, h, h.not_gt, not_lt, true_and, false_and, false_or, or_false]
    constructor <;> intro <;> nlinarith
  · simp
  · have h' : (v : ℝ) < u := by exact_mod_cast h
    simp only [h.ne', h, h.not_gt, not_lt, true_and, false_and, false_or]
    constructor <;> intro <;> nlinarith

theorem SameHalfUnit.abs_sub_le_iff {x y : ℝ} (h : SameHalfUnit x y) (u v : Nat) :
    |x - u| ≤ |x - v| ↔ |y - u| ≤ |y - v| := by
  rw [abs_sub_le_abs_sub_iff, abs_sub_le_abs_sub_iff, (h (u + v)).1, (h (u + v)).2]

/-- Rounding to the data cannot tell `x` from `y` either. -/
theorem SameHalfUnit.roundsTo {x y : ℝ} (h : SameHalfUnit x y) {s : Bool} {r : F32} (hy : RoundsTo y s r) :
    RoundsTo x s r := by
  obtain ⟨hnan, hsign, hbig, hsmall⟩ := hy
  have hover : x < ((2 : ℝ) ^ 128 - 2 ^ 103) * 2 ^ 149 ↔ y < ((2 : ℝ) ^ 128 - 2 ^ 103) * 2 ^ 149 := by
    rw [show ((2 : ℝ) ^ 128 - 2 ^ 103) * 2 ^ 149 = (((2 ^ 128 - 2 ^ 103) * 2 ^ 150 : Nat) : ℝ) / 2 by norm_num]
    exact (h _).1
  refine ⟨hnan, hsign, fun hx => hbig (not_lt.mp (mt hover.mpr hx.not_gt)), fun hx => ?_⟩
  obtain ⟨hfin, hnear⟩ := hsmall (hover.mp hx)
  refine ⟨hfin, fun v hv => ?_⟩
  obtain ⟨hle, htie⟩ := hnear v hv
  rw [le_antisymm_iff, h.abs_sub_le_iff, h.abs_sub_le_iff, ← le_antisymm_iff]
  exact ⟨hle, htie⟩

/-- The root of `n` in half units is in the half unit that starts at the whole root, at its start only if `n` is a
square. -/
theorem sameHalfUnit_sqrt (n : Nat) :
    SameHalfUnit (√n / 2) (((2 * isqrt n + if isqrt n * isqrt n = n then 0 else 1 : Nat) : ℝ) / (4 : Nat)) := by
  obtain ⟨hlo, hhi⟩ := isqrt_spec n
  intro k
  have hk : (k : ℝ) = √((k * k : Nat) : ℝ) := by rw [Nat.cast_mul, Real.sqrt_mul_self k.cast_nonneg]
  have hbelow : √n < k ↔ n < k * k := by
    rw [hk, Real.sqrt_lt_sqrt_iff (Nat.cast_nonneg _), Nat.cast_lt]
  have habove : k < √n ↔ k * k < n := by
    rw [hk, Real.sqrt_lt_sqrt_iff (Nat.cast_nonneg _), Nat.cast_lt]
  rw [div_lt_div_iff_of_pos_right two_pos, div_lt_div_iff_of_pos_right two_pos, hbelow, habove,
    div_lt_div_iff₀ (by norm_num) (by norm_num), div_lt_div_iff₀ (by norm_num) (by norm_num)]
  norm_cast
  have hle : k ≤ isqrt n ↔ k * k ≤ n := ⟨fun h => (Nat.mul_self_le_mul_self h).trans hlo,
    fun h => Nat.lt_succ_iff.mp (Nat.mul_self_lt_mul_self_iff.mp (h.trans_lt hhi))⟩
  have hroot : k * k = n → k = isqrt n := fun h =>
    le_antisymm (hle.mpr h.le) (Nat.mul_self_le_mul_self_iff.mp (hlo.trans h.ge))
  split
  next hsq =>
    have hsquare : k = isqrt n → k * k = n := fun h => h ▸ hsq
    omega
  next hsq =>
    have hne : k * k ≠ n := fun h => hsq (hroot h ▸ h)
    omega

/-- Settles O13: the model rounds the middle of the root's half unit, and rounding does not tell it from the root. -/
theorem rootIsExactRootRoundedOnce : Obligations.RootIsExactRootRoundedOnce := by
  refine ⟨fun a hfin hsign hzero => ?_, by decide, by decide, by decide, fun a hnan hzero hsign => ?_,
    fun a hnan => ?_⟩
  · have hroot : √((units a : ℝ) * 2 ^ 149) = √((units a * 2 ^ 151 : Nat) : ℝ) / 2 := by
      rw [show ((units a * 2 ^ 151 : Nat) : ℝ) = 2 ^ 2 * (units a * 2 ^ 149) by push_cast; ring,
        Real.sqrt_mul (by norm_num : (0 : ℝ) ≤ 2 ^ 2), Real.sqrt_sq two_pos.le, mul_div_cancel_left₀ _ (by norm_num)]
    rw [fsqrt_positive hfin hsign hzero, hroot]
    exact (sameHalfUnit_sqrt _).roundsTo (roundingIsNearestTiesToEven false _ 4 (by norm_num))
  · simp [fsqrt, hnan, hzero, hsign, isNaN_canonicalNaN]
  · simp [fsqrt, hnan, isNaN_canonicalNaN]

end Sys2Proof.Proofs
end

section
/-! The settlement of O9 and O10: on finite data the sum is one rounding of the exact sum, and the difference is the sum
with the second value negated (40_primitives.md R82, R83). -/

namespace Sys2Proof.Proofs

open Sys2Proof Sys2Proof.Machine Sys2Proof.Laws

/-! ### Sums -/

theorem fadd_inf_inf_opposite {a b : F32} (ha : isInf a = true) (hb : isInf b = true)
    (hs : signBit a ≠ signBit b) : fadd a b = canonicalNaN := by
  simp [fadd, ha, hb, hs]

theorem fadd_inf_inf_alike {a b : F32} (ha : isInf a = true) (hb : isInf b = true)
    (hs : signBit a = signBit b) : fadd a b = a := by
  simp [fadd, ha, hs, isNaN_of_isInf ha, isNaN_of_isInf hb]

theorem fadd_inf_finite {a b : F32} (ha : isInf a = true) (hb : isFinite b = true) : fadd a b = a := by
  simp [fadd, ha, isNaN_of_isInf ha, isNaN_of_isFinite hb, isInf_of_isFinite hb]

theorem fadd_finite_inf {a b : F32} (ha : isFinite a = true) (hb : isInf b = true) : fadd a b = b := by
  simp [fadd, hb, isNaN_of_isInf hb, isNaN_of_isFinite ha, isInf_of_isFinite ha]

theorem fadd_finite_zero {a b : F32} (ha : isFinite a = true) (hb : isFinite b = true)
    (h : signedUnits a + signedUnits b = 0) :
    fadd a b = if signBit a && signBit b then fNegZero else fZero := by
  rw [fadd_finite ha hb, faddFinite_zero h]
  cases signBit a && signBit b <;> decide

theorem roundsTo_fadd {a b : F32} (ha : isFinite a = true) (hb : isFinite b = true)
    (h : signedUnits a + signedUnits b ≠ 0) : RoundsTo |((signedUnits a + signedUnits b : Int) : ℝ)|
      (decide (signedUnits a + signedUnits b < 0)) (fadd a b) := by
  have hround := roundingIsNearestTiesToEven (decide (signedUnits a + signedUnits b < 0))
    (signedUnits a + signedUnits b).natAbs 1 Nat.one_pos
  rwa [Nat.cast_natAbs, Nat.cast_one, div_one, Int.cast_abs, ← faddFinite_round h, ← fadd_finite ha hb] at hround

/-- Settles O9, one lemma for each clause. -/
theorem sumIsExactSumRoundedOnce : Obligations.SumIsExactSumRoundedOnce := fun _ _ =>
  ⟨fun h => (congrArg isNaN (fadd_nan h)).trans isNaN_canonicalNaN,
    fun ha hb hs => (congrArg isNaN (fadd_inf_inf_opposite ha hb hs)).trans isNaN_canonicalNaN,
    fadd_inf_inf_alike, fadd_inf_finite, fadd_finite_inf, fadd_finite_zero, roundsTo_fadd⟩

/-! ### Differences -/

theorem expField_fneg (b : F32) : expField (fneg b) = expField b := by
  rw [expField, fneg, BitVec.extractLsb'_xor, show (0x80000000 : BitVec 32).extractLsb' 23 8 = 0#8 by decide,
    BitVec.xor_zero, expField]

theorem fracField_fneg (b : F32) : fracField (fneg b) = fracField b := by
  rw [fracField, fneg, BitVec.extractLsb'_xor, show (0x80000000 : BitVec 32).extractLsb' 0 23 = 0#23 by decide,
    BitVec.xor_zero, fracField]

theorem units_fneg (b : F32) : units (fneg b) = units b := by
  rw [units, units, significand, significand, expField_fneg, fracField_fneg]

theorem isFinite_fneg (b : F32) : isFinite (fneg b) = isFinite b := by
  rw [isFinite, isFinite, expField_fneg]

theorem signedUnits_fneg (b : F32) : signedUnits (fneg b) = -signedUnits b := by
  rw [signedUnits, signedUnits, signBit_fneg, units_fneg]
  cases signBit b <;> simp

/-- Settles O10. -/
theorem differenceIsSumWithFlippedSign : Obligations.DifferenceIsSumWithFlippedSign := by
  refine ⟨fun b => ⟨signBit_fneg b, expField_fneg b, fracField_fneg b⟩, fun _ _ => rfl, fun a b ha hb hne => ?_,
    fun x hx => ?_⟩
  · have hround := roundsTo_fadd ha ((isFinite_fneg b).trans hb)
    simp only [signedUnits_fneg, ← sub_eq_add_neg, sub_neg] at hround
    exact hround (sub_ne_zero.mpr hne)
  · rw [fsub, fadd_finite_zero hx ((isFinite_fneg x).trans hx) (by rw [signedUnits_fneg, add_neg_cancel]), signBit_fneg,
      Bool.and_not_self, if_neg Bool.false_ne_true]

end Sys2Proof.Proofs
end

section
/-! The settlement of O11, O12 and O15: products and quotients of finite data are one rounding of the exact result, and
a result of at most 24 significant bits is not changed by it (40_primitives.md R84, R85, R88). -/

namespace Sys2Proof.Proofs

open Sys2Proof Sys2Proof.Machine Sys2Proof.Laws

/-! ### Products -/

theorem fmul_inf {a b : F32} (hinf : isInf a = true ∨ isInf b = true) (ha : isNaN a = false) (hb : isNaN b = false)
    (ha0 : isZero a = false) (hb0 : isZero b = false) : fmul a b = infinity (signBit a != signBit b) := by
  rcases hinf with h | h <;> simp [fmul, h, ha, hb, ha0, hb0]

theorem isZero_of_isInf {a : F32} (h : isInf a = true) : isZero a = false := by
  simp_all [isInf, isZero]

theorem fmul_zero_inf {a b : F32} (h : isZero a = true ∧ isInf b = true ∨ isInf a = true ∧ isZero b = true) :
    fmul a b = canonicalNaN := by
  rcases h with ⟨ha, hb⟩ | ⟨ha, hb⟩ <;> simp [fmul, ha, hb]

theorem signBit_fmul {a b : F32} (h : isNaN (fmul a b) = false) : signBit (fmul a b) = (signBit a != signBit b) := by
  have hnan : isNaN canonicalNaN ≠ false := by decide
  unfold fmul at *
  split_ifs at * with h1 h2 h3
  · exact absurd h hnan
  · exact absurd h hnan
  · exact signBit_infinity _
  · exact signBit_roundF32 _ _ _

theorem roundsTo_fmul {a b : F32} (ha : isFinite a = true) (hb : isFinite b = true) :
    RoundsTo ((units a : ℝ) * units b / 2 ^ 149) (signBit a != signBit b) (fmul a b) := by
  have hround := roundingIsNearestTiesToEven (signBit a != signBit b) (units a * units b) (2 ^ 149) (by positivity)
  rwa [Nat.cast_mul, Nat.cast_pow, Nat.cast_ofNat, ← fmul_finite ha hb] at hround

/-! ### Exact results -/

/-- Rounding changes a magnitude of at most 24 significant bits only by overflow. -/
theorem units_roundF32_exact (s : Bool) {k j den : Nat} (hd : 0 < den) (hk : k < 2 ^ 24)
    (hfin : isFinite (roundF32 s (k * 2 ^ j * den) den) = true) :
    units (roundF32 s (k * 2 ^ j * den) den) = k * 2 ^ j := by
  have hlt : k * 2 ^ j * den < 2 ^ (24 + j) * den := by rw [pow_add]; gcongr
  have hp := not_le.mp fun hover => by
    rw [roundF32_overflow s _ den hover, isFinite_of_isInf (isInf_infinity s)] at hfin
    exact Bool.false_ne_true hfin
  obtain ⟨c, hc⟩ : 2 ^ binade (k * 2 ^ j * den) den ∣ k * 2 ^ j :=
    Dvd.dvd.mul_left (pow_dvd_pow 2 (binade_le hd hlt)) k
  have hnum : k * 2 ^ j * den = c * (den * 2 ^ binade (k * 2 ^ j * den) den) := by
    linear_combination den * hc
  have hsig : roundedSignificand (k * 2 ^ j * den) den = c :=
    (congrArg (roundHalfEven · _) hnum).trans (roundHalfEven_mul _ _ (by positivity))
  rw [(units_roundF32 s _ den hd hp).2, hsig, Nat.mul_comm c, ← hc]

theorem isDatum_fTwo : IsDatum fTwo false (2 ^ 150) := ⟨by decide, by decide, by decide⟩

/-- A finite product is exact where the exact product has at most 24 significant bits. -/
theorem units_fmul_exact {a c : F32} (ha : isFinite a = true) (hc : isFinite c = true) {k j : Nat} (hk : k < 2 ^ 24)
    (h : units a * units c = k * 2 ^ j * 2 ^ 149) (hfin : isFinite (fmul a c) = true) :
    units (fmul a c) * 2 ^ 149 = units a * units c := by
  rw [fmul_finite ha hc, h] at *
  rw [units_roundF32_exact _ (by positivity) hk hfin]

/-- Half of zero or of an even number of units is exact; from 2^24 units up every magnitude is even. -/
theorem units_fmul_fHalf {a : F32} (ha : isFinite a = true) (h : units a = 0 ∨ 2 ^ 24 ≤ units a)
    (hfin : isFinite (fmul a fHalf) = true) : units (fmul a fHalf) * 2 ^ 149 = units a * units fHalf := by
  rcases h with h | h
  · exact units_fmul_exact ha isDatum_fHalf.finite (k := 0) (j := 0) (by norm_num) (by rw [h]; simp) hfin
  · obtain ⟨j, hj⟩ : ∃ j, expField a - 1 = j + 1 := ⟨expField a - 2, by have := lt_expField_of_le_units h; omega⟩
    exact units_fmul_exact ha isDatum_fHalf.finite (significand_lt a) (j := j)
      (by rw [isDatum_fHalf.magnitude, units, hj]; ring) hfin

/-- Settles O11, one lemma for each class of operands. -/
theorem productIsExactProductRoundedOnce : Obligations.ProductIsExactProductRoundedOnce := by
  refine ⟨fun a b => ⟨fun h => (congrArg isNaN (fmul_nan h)).trans isNaN_canonicalNaN,
    fun h => (congrArg isNaN (fmul_zero_inf h)).trans isNaN_canonicalNaN, fun ha hb hb0 => ?_, fun hb ha ha0 => ?_,
    signBit_fmul, roundsTo_fmul⟩, fun a c ha hc hnormal hfin => ?_⟩
  · rw [fmul_inf (.inl ha) (isNaN_of_isInf ha) hb (isZero_of_isInf ha) hb0]
    exact isInf_infinity _
  · rw [fmul_inf (.inr hb) ha (isNaN_of_isInf hb) ha0 (isZero_of_isInf hb)]
    exact isInf_infinity _
  · have hsig := significand_lt a
    obtain rfl | rfl | rfl | rfl : c = fHalf ∨ c = fTwo ∨ c = fOne ∨ c = fNegOne := by simpa using hc
    · rw [isDatum_fHalf.magnitude] at hnormal
      exact units_fmul_fHalf ha (by omega) hfin
    · exact units_fmul_exact ha isDatum_fTwo.finite hsig (j := expField a - 1 + 1)
        (by rw [isDatum_fTwo.magnitude, units]; ring) hfin
    · exact units_fmul_exact ha isDatum_fOne.finite hsig (by rw [isDatum_fOne.magnitude, units]) hfin
    · exact units_fmul_exact ha isDatum_fNegOne.finite hsig (by rw [isDatum_fNegOne.magnitude, units]) hfin

/-! ### Integers and quotients -/

theorem isDatum_u2f (n : BitVec 16) : IsDatum (u2f n) false (n.toNat * 2 ^ 149) :=
  isDatum_roundF32_whole false (n.isLt.trans (by norm_num)) (by norm_num)

theorem IsDatum.ratValue_eq {a : F32} {u : Nat} (h : IsDatum a false u) : ratValue a = u / 2 ^ 149 := by
  rw [ratValue, h.signedUnits_eq, if_neg Bool.false_ne_true, Int.cast_natCast]

/-- Settles O15: a 16-bit integer has at most 24 significant bits. -/
theorem integerToFloatIsExact : Obligations.IntegerToFloatIsExact := by
  refine fun n => ⟨(isDatum_u2f n).finite, ?_⟩
  rw [(isDatum_u2f n).ratValue_eq, Nat.cast_mul, Nat.cast_pow, Nat.cast_ofNat, mul_div_cancel_right₀ _ (by positivity)]

theorem isZero_eq_false {b : F32} : isZero b = false ↔ 0 < units b := by
  rw [Bool.eq_false_iff, ne_eq, isZero_iff_units, Nat.pos_iff_ne_zero]

/-- The quotient of a 16-bit integer by one that is not zero does not overflow. -/
theorem isFinite_fdiv_u2f (n : BitVec 16) {b : F32} {K : Nat} (hb : IsDatum b false (K * 2 ^ 149)) (hK : 0 < K) :
    isFinite (fdiv (u2f n) b) = true := by
  have hn := n.isLt
  have hpos : 0 < units b := by rw [hb.magnitude]; positivity
  rw [fdiv_finite (isDatum_u2f n).finite hb.finite (isZero_eq_false.mpr hpos), (isDatum_u2f n).magnitude, hb.magnitude]
  exact (units_roundF32_of_lt _ (m := 149) (by positivity) (by norm_num) (by omega)).1

/-- Settles O12, from the one rounding of the quotient. -/
theorem quotientIsExactQuotientRoundedOnce : Obligations.QuotientIsExactQuotientRoundedOnce := by
  refine ⟨fun a b ha hb hb0 => ?_, fun n => ⟨(isDatum_u2f n).finite, (isDatum_u2f n).sign, ?_,
    isFinite_fdiv_u2f n isDatum_fKX (by decide), isFinite_fdiv_u2f n isDatum_fKY (by decide)⟩,
    isDatum_fKX.magnitude, isDatum_fKY.magnitude⟩
  · have hround := roundingIsNearestTiesToEven (signBit a != signBit b) (units a * 2 ^ 149) (units b)
      (isZero_eq_false.mp hb0)
    rwa [Nat.cast_mul, Nat.cast_pow, Nat.cast_ofNat, ← fdiv_finite ha hb hb0] at hround
  · have hn := n.isLt
    rw [(isDatum_u2f n).magnitude]
    omega

end Sys2Proof.Proofs
end

section
/-! The settlement of O14: signed units order the data that are no NaN as their values do (40_primitives.md R87). -/

namespace Sys2Proof.Proofs

open Sys2Proof Sys2Proof.Machine Sys2Proof.Laws

theorem signedUnits_of_isInf {a : F32} (h : isInf a = true) :
    signedUnits a = if signBit a then -2 ^ 277 else 2 ^ 277 := by
  rw [signedUnits, (isInf_iff_units a).mp h]
  simp only [Nat.cast_pow, Nat.cast_ofNat]

theorem signedUnits_bounds (a : F32) : -(units a : Int) ≤ signedUnits a ∧ signedUnits a ≤ units a := by
  have := signedUnits_natAbs a
  omega

/-- Every datum that is no NaN lies between the infinities. -/
theorem signedUnits_between_infinities {a : F32} (h : isNaN a = false) :
    -2 ^ 277 ≤ signedUnits a ∧ signedUnits a ≤ 2 ^ 277 := by
  have hle := units_le_of_not_isNaN h
  have := signedUnits_bounds a
  omega

/-- Every finite datum lies strictly between the infinities. -/
theorem signedUnits_of_isFinite {a : F32} (h : isFinite a = true) :
    -2 ^ 277 < signedUnits a ∧ signedUnits a < 2 ^ 277 := by
  have hlt := units_lt_of_isFinite h
  have := signedUnits_bounds a
  omega

theorem extendedValue_of_isInf {a : F32} (h : isInf a = true) :
    extendedValue a = if signBit a then ⊥ else ((⊤ : WithTop ℚ) : WithBot (WithTop ℚ)) := by
  rw [extendedValue, if_pos h]

theorem extendedValue_of_isFinite {a : F32} (h : isFinite a = true) :
    extendedValue a = ((ratValue a : WithTop ℚ) : WithBot (WithTop ℚ)) := by
  rw [extendedValue, isInf_of_isFinite h, if_neg Bool.false_ne_true]

theorem ratValue_lt_ratValue_iff (a b : F32) : ratValue a < ratValue b ↔ signedUnits a < signedUnits b := by
  rw [ratValue, ratValue, div_lt_div_iff_of_pos_right (by positivity), Int.cast_lt]

theorem extendedValue_lt_iff {a b : F32} (ha : isNaN a = false) (hb : isNaN b = false) :
    extendedValue a < extendedValue b ↔ signedUnits a < signedUnits b := by
  have hpos : (0 : Int) < 2 ^ 277 := by positivity
  have hinf (c : F32) := signedUnits_of_isInf (a := c)
  have hfin (c : F32) := signedUnits_of_isFinite (a := c)
  generalize (2 : Int) ^ 277 = top at *
  rcases isInf_or_isFinite ha with ha | ha <;> rcases isInf_or_isFinite hb with hb | hb
  · rw [extendedValue_of_isInf ha, extendedValue_of_isInf hb, hinf a ha, hinf b hb]
    cases signBit a <;> cases signBit b <;> simp <;> omega
  · obtain ⟨hlo, hhi⟩ := hfin b hb
    rw [extendedValue_of_isInf ha, extendedValue_of_isFinite hb, hinf a ha]
    cases signBit a with
    | false => exact iff_of_false (WithBot.coe_lt_coe.not.mpr not_top_lt) hhi.not_gt
    | true => exact iff_of_true (WithBot.bot_lt_coe _) hlo
  · obtain ⟨hlo, hhi⟩ := hfin a ha
    rw [extendedValue_of_isFinite ha, extendedValue_of_isInf hb, hinf b hb]
    cases signBit b with
    | false => exact iff_of_true (WithBot.coe_lt_coe.mpr (WithTop.coe_lt_top _)) hhi
    | true => exact iff_of_false not_lt_bot hlo.not_gt
  · rw [extendedValue_of_isFinite ha, extendedValue_of_isFinite hb, WithBot.coe_lt_coe, WithTop.coe_lt_coe,
      ratValue_lt_ratValue_iff]

theorem flt_iff (a b : F32) :
    flt a b = true ↔ isNaN a = false ∧ isNaN b = false ∧ signedUnits a < signedUnits b := by
  simp [flt, and_assoc]

theorem signedUnits_neg_of_isSubnormal {a : F32} (hsub : isSubnormal a = true) (hsign : signBit a = true) :
    signedUnits a < 0 := by
  have hpos : 0 < units a := isZero_eq_false.mp (by simp_all [isSubnormal, isZero])
  rw [signedUnits, if_pos hsign]
  omega

/-- Settles O14, by the order of the signed units. -/
theorem lessThanIsOrderOfValues : Obligations.LessThanIsOrderOfValues := by
  refine ⟨fun a b => ?_, by decide, fun a ha => ?_, by decide, fun a hsub hsign => ?_⟩
  · rw [flt_iff]
    exact and_congr_right fun ha => and_congr_right fun hb => (extendedValue_lt_iff ha hb).symm
  · simp [flt, ha]
  · have hnan : isNaN a = false := by simp_all [isSubnormal, isNaN]
    have hzero : signedUnits fZero = 0 := by decide
    exact (flt_iff a fZero).mpr ⟨hnan, by decide, hzero ▸ signedUnits_neg_of_isSubnormal hsub hsign⟩

end Sys2Proof.Proofs
end

section
/-! The settlement of O16: below 2^23 the rounded integer has at most 24 bits, from there up every datum is an integer
(40_primitives.md R93). -/

namespace Sys2Proof.Proofs

open Sys2Proof Sys2Proof.Machine Sys2Proof.Laws

/-- Rounding changes no finite datum. -/
theorem roundF32_units {r : F32} (h : isFinite r = true) : roundF32 (signBit r) (units r) 1 = r := by
  have hle : units r ≤ (2 ^ 24 - 1) * 2 ^ 253 :=
    units_le_of_lt (by simpa only [Nat.reduceAdd] using units_lt_of_isFinite h)
  have hfin : isFinite (roundF32 (signBit r) (units r) 1) = true :=
    (units_roundF32 _ _ 1 Nat.one_pos (not_le.mp ((overflow_iff Nat.one_pos).not.mpr (by omega)))).1
  have hform : units r = significand r * 2 ^ (expField r - 1) * 1 := (mul_one _).symm
  refine eq_of_signBit_units_eq (signBit_roundF32 _ _ _) ?_
  rw [hform] at hfin
  rw [hform, units_roundF32_exact _ Nat.one_pos (significand_lt r) hfin, mul_one]

theorem isDatum_self {r : F32} (h : isFinite r = true) : IsDatum r (signBit r) (units r) := ⟨h, rfl, rfl⟩

/-- From 2^23 up every datum is an integer. -/
theorem dvd_units_of_le {r : F32} (h : 2 ^ 172 ≤ units r) : 2 ^ 149 ∣ units r := by
  have := lt_expField_of_le_units h
  exact Dvd.dvd.mul_left (pow_dvd_pow 2 (by omega)) _

theorem rndAway_of_le {r : F32} (hfin : isFinite r = true) (h : 2 ^ 172 ≤ units r) : rndAway r = r := by
  obtain ⟨c, hc⟩ := dvd_units_of_le h
  have hquot : (2 * units r + 2 ^ 149) / 2 ^ 150 * 2 ^ 149 = units r := by omega
  rw [rndAway_finite hfin, hquot, roundF32_units hfin]

theorem rndAway_inf {r : F32} (h : isInf r = true) : rndAway r = r := by
  simp [rndAway, h, isNaN_of_isInf h]

theorem rndAway_nan {r : F32} (h : isNaN r = true) : rndAway r = canonicalNaN := by
  simp [rndAway, h]

/-- The integer that `rnd_away` gives a finite datum, without its sign. -/
def awayInteger (r : F32) : Nat := (2 * units r + 2 ^ 149) / 2 ^ 150

/-- `rnd_away` makes no error after the one rounding to an integer. -/
theorem isDatum_rndAway {r : F32} (h : isFinite r = true) :
    IsDatum (rndAway r) (signBit r) (awayInteger r * 2 ^ 149) := by
  rcases Nat.lt_or_ge (units r) (2 ^ 172) with hlt | hge
  · rw [rndAway_finite h]
    exact isDatum_roundF32_whole _ (by omega) (by norm_num)
  · obtain ⟨c, hc⟩ := dvd_units_of_le hge
    have hint : awayInteger r * 2 ^ 149 = units r := by unfold awayInteger; omega
    rw [rndAway_of_le h hge, hint]
    exact isDatum_self h

theorem abs_ratValue (a : F32) : |ratValue a| = units a / 2 ^ 149 := by
  rw [ratValue, abs_div, abs_of_pos (by positivity : (0 : ℚ) < 2 ^ 149), ← Int.cast_abs, ← Int.natCast_natAbs,
    signedUnits_natAbs, Int.cast_natCast]

theorem awayInteger_eq_floor (r : F32) : (awayInteger r : Int) = ⌊|ratValue r| + 1 / 2⌋ := by
  have hsum : |ratValue r| + 1 / 2 = ((2 * units r + 2 ^ 149 : Nat) : ℚ) / (2 ^ 150 : Nat) := by
    rw [abs_ratValue]
    push_cast
    field_simp
    ring
  rw [hsum, Rat.floor_natCast_div_natCast, awayInteger, Int.natCast_ediv]

/-- Settles O16; the examples are evaluated. -/
theorem integerRoundingIsHalfAwayFromZero : Obligations.IntegerRoundingIsHalfAwayFromZero := by
  refine ⟨fun r h => ⟨(isDatum_rndAway h).finite, (isDatum_rndAway h).sign, ?_⟩, fun r h hlarge => ?_,
    fun r => rndAway_inf, fun r h => (congrArg isNaN (rndAway_nan h)).trans isNaN_canonicalNaN, by decide⟩
  · rw [abs_ratValue, (isDatum_rndAway h).magnitude, ← awayInteger_eq_floor, Nat.cast_mul, Nat.cast_pow, Nat.cast_ofNat,
      mul_div_cancel_right₀ _ (by positivity), Int.cast_natCast]
  · rw [abs_ratValue, le_div_iff₀ (by positivity), ← pow_add] at hlarge
    exact rndAway_of_le h (by exact_mod_cast hlarge)

end Sys2Proof.Proofs
end

section
/-! Monotonicity (40_primitives.md R98, R100): one rounding keeps the order of the exact results, so every operation
of the block in one operand keeps the order of the data that are no NaN, and so do their compositions. -/

namespace Sys2Proof.Proofs

open Sys2Proof Sys2Proof.Machine Sys2Proof.Laws

/-! ### Rounding keeps the order -/

theorem RoundsTo.units_le_of_lt {x y : ℝ} {s t : Bool} {r q : F32} (hr : RoundsTo x s r) (hq : RoundsTo y t q)
    (h : x < y) : units r ≤ units q := by
  obtain ⟨hnan, -, -, hx⟩ := hr
  obtain ⟨-, -, hbig, hy⟩ := hq
  rcases lt_or_ge y (((2 : ℝ) ^ 128 - 2 ^ 103) * 2 ^ 149) with hsmall | hover
  · obtain ⟨hrfin, hrnear⟩ := hx (h.trans hsmall)
    obtain ⟨hqfin, hqnear⟩ := hy hsmall
    by_contra hlt
    have hlt' : (units q : ℝ) < units r := by exact_mod_cast not_le.mp hlt
    have hxr := sq_le_sq.mpr (hrnear q hqfin).1
    have hyq := sq_le_sq.mpr (hqnear r hrfin).1
    nlinarith
  · rw [(isInf_iff_units q).mp (hbig hover)]
    exact units_le_of_not_isNaN hnan

/-- The magnitude of a datum does not depend on its sign. -/
theorem units_ofSignMag_eq (s t : Bool) (p : Nat) : units (ofSignMag s p) = units (ofSignMag t p) := by
  simp only [units, significand, expField_ofSignMag, fracField_ofSignMag]

theorem units_roundF32_mono (s t : Bool) {num num' den : Nat} (hd : 0 < den) (h : num ≤ num') :
    units (roundF32 s num den) ≤ units (roundF32 t num' den) := by
  rcases h.eq_or_lt with rfl | hlt
  · exact (units_ofSignMag_eq s t _).le
  · exact RoundsTo.units_le_of_lt (roundingIsNearestTiesToEven s num den hd)
      (roundingIsNearestTiesToEven t num' den hd) (by gcongr)

theorem units_roundF32_zero (s : Bool) {den : Nat} (hd : 0 < den) : units (roundF32 s 0 den) = 0 := by
  simpa using (isDatum_roundF32_exact s (k := 0) (j := 0) hd (by norm_num) (by norm_num)).magnitude

theorem signedUnits_roundF32_mono {z z' : Int} {den : Nat} (hd : 0 < den) (h : z ≤ z') :
    signedUnits (roundF32 (decide (z < 0)) z.natAbs den) ≤ signedUnits (roundF32 (decide (z' < 0)) z'.natAbs den) := by
  have hup := units_roundF32_mono (decide (z < 0)) (decide (z' < 0)) (num := z.natAbs) (num' := z'.natAbs) hd
  have hdown := units_roundF32_mono (decide (z' < 0)) (decide (z < 0)) (num := z'.natAbs) (num' := z.natAbs) hd
  simp only [signedUnits, signBit_roundF32, decide_eq_true_eq]
  split_ifs <;> omega

/-! ### Functions that keep the order of the data -/

/-- `f` keeps the order of the data that are no NaN, and makes no NaN of one. -/
structure KeepsOrder (f : F32 → F32) : Prop where
  not_nan : ∀ {x}, isNaN x = false → isNaN (f x) = false
  mono : ∀ {x y}, isNaN x = false → isNaN y = false → signedUnits x ≤ signedUnits y →
    signedUnits (f x) ≤ signedUnits (f y)

theorem KeepsOrder.comp {f g : F32 → F32} (hg : KeepsOrder g) (hf : KeepsOrder f) : KeepsOrder fun x => g (f x) :=
  ⟨fun hx => hg.not_nan (hf.not_nan hx), fun hx hy h => hg.mono (hf.not_nan hx) (hf.not_nan hy) (hf.mono hx hy h)⟩

/-- A function that keeps the infinities needs to be looked at on finite data only. -/
theorem KeepsOrder.of_finite {f : F32 → F32} (hinf : ∀ x, isInf x = true → f x = x)
    (hnan : ∀ x, isFinite x = true → isNaN (f x) = false)
    (hmono : ∀ x y, isFinite x = true → isFinite y = true → signedUnits x ≤ signedUnits y →
      signedUnits (f x) ≤ signedUnits (f y)) : KeepsOrder f := by
  have hnan' : ∀ {x}, isNaN x = false → isNaN (f x) = false := fun {x} hx =>
    (isInf_or_isFinite hx).elim (fun h => by rwa [hinf x h]) (hnan x)
  refine ⟨hnan', fun {x y} hx hy h => ?_⟩
  obtain ⟨hlo, -⟩ := signedUnits_between_infinities (hnan' hy)
  obtain ⟨-, hhi⟩ := signedUnits_between_infinities (hnan' hx)
  rcases isInf_or_isFinite hx with hx | hx <;> rcases isInf_or_isFinite hy with hy | hy
  · rwa [hinf x hx, hinf y hy]
  · have hxv := signedUnits_of_isInf hx
    have hyv := signedUnits_of_isFinite hy
    rw [hinf x hx]
    split at hxv <;> omega
  · have hyv := signedUnits_of_isInf hy
    have hxv := signedUnits_of_isFinite hx
    rw [hinf y hy]
    split at hyv <;> omega
  · exact hmono x y hx hy h

/-- A function that keeps signs and infinities keeps the order if its magnitude grows with that of its operand. -/
theorem KeepsOrder.of_magnitude {f : F32 → F32} {g : Nat → Nat} (hg : Monotone g) (hg0 : g 0 = 0)
    (hinf : ∀ x, isInf x = true → f x = x) (hnan : ∀ x, isFinite x = true → isNaN (f x) = false)
    (hfin : ∀ x, isFinite x = true → signBit (f x) = signBit x ∧ units (f x) = g (units x)) : KeepsOrder f := by
  refine .of_finite hinf hnan fun x y hx hy h => ?_
  obtain ⟨hxs, hxu⟩ := hfin x hx
  obtain ⟨hys, hyu⟩ := hfin y hy
  have hup : units x ≤ units y → g (units x) ≤ g (units y) := fun h => hg h
  have hdown : units y ≤ units x → g (units y) ≤ g (units x) := fun h => hg h
  rw [signedUnits, signedUnits] at h
  rw [signedUnits, signedUnits, hxs, hys, hxu, hyu]
  revert h
  cases signBit x <;> cases signBit y <;> simp only [Bool.false_eq_true, if_true, if_false] <;> intro h
  · omega
  · obtain ⟨hx0, hy0⟩ : units x = 0 ∧ units y = 0 := by omega
    rw [hx0, hy0, hg0]
    rfl
  · omega
  · omega

/-! ### The operations of the block -/

theorem signedUnits_fadd {a b : F32} (ha : isFinite a = true) (hb : isFinite b = true) :
    signedUnits (fadd a b) = signedUnits (roundF32 (decide (signedUnits a + signedUnits b < 0))
      (signedUnits a + signedUnits b).natAbs 1) := by
  rw [fadd_finite ha hb]
  by_cases h : signedUnits a + signedUnits b = 0
  · rw [faddFinite_zero h, h]
    cases signBit a && signBit b <;> decide
  · rw [faddFinite_round h]

theorem isNaN_fadd_finite {a b : F32} (ha : isFinite a = true) (hb : isFinite b = true) : isNaN (fadd a b) = false := by
  by_cases h : signedUnits a + signedUnits b = 0
  · rw [fadd_finite_zero ha hb h]
    split <;> decide
  · rw [fadd_finite ha hb, faddFinite_round h]
    exact isNaN_roundF32 _ _ _

theorem keepsOrder_fadd {c : F32} (hc : isFinite c = true) : KeepsOrder fun x => fadd x c := by
  refine .of_finite (fun x hx => fadd_inf_finite hx hc) (fun x hx => isNaN_fadd_finite hx hc) fun x y hx hy h => ?_
  rw [signedUnits_fadd hx hc, signedUnits_fadd hy hc]
  exact signedUnits_roundF32_mono Nat.one_pos (by omega)

/-- The magnitude of a product by `u` units. -/
def productUnits (u v : Nat) : Nat := units (roundF32 false (v * u) (2 ^ 149))

theorem productUnits_monotone (u : Nat) : Monotone (productUnits u) := fun _ _ h =>
  units_roundF32_mono _ _ (by positivity) (Nat.mul_le_mul_right u h)

theorem productUnits_zero (u : Nat) : productUnits u 0 = 0 := by
  rw [productUnits, Nat.zero_mul]
  exact units_roundF32_zero false (by positivity)

theorem keepsOrder_fmul {c : F32} {u : Nat} (hc : IsDatum c false u) (hu : 0 < u) : KeepsOrder fun x => fmul x c := by
  have hnan := isNaN_of_isFinite hc.finite
  have hzero : isZero c = false := isZero_eq_false.mpr (hc.magnitude ▸ hu)
  refine .of_magnitude (productUnits_monotone u) (productUnits_zero u) (fun x hx => ?_) (fun x hx => ?_) fun x hx => ?_
  · rw [fmul_inf (.inl hx) (isNaN_of_isInf hx) hnan (isZero_of_isInf hx) hzero, hc.sign, Bool.bne_false]
    exact (eq_infinity_of_isInf hx).symm
  · rw [fmul_finite hx hc.finite]
    exact isNaN_roundF32 _ _ _
  · rw [(isDatum_self hx).fmul_eq hc, Bool.bne_false]
    exact ⟨signBit_roundF32 _ _ _, units_ofSignMag_eq _ _ _⟩

theorem keepsOrder_rndAway : KeepsOrder rndAway := by
  refine .of_magnitude (g := fun v => (2 * v + 2 ^ 149) / 2 ^ 150 * 2 ^ 149) (fun v w h => ?_) (by norm_num)
    (fun x => rndAway_inf) (fun x hx => isNaN_of_isFinite (isDatum_rndAway hx).finite)
    fun x hx => ⟨(isDatum_rndAway hx).sign, (isDatum_rndAway hx).magnitude⟩
  dsimp only
  omega

theorem keepsOrder_unorm : KeepsOrder unorm :=
  (keepsOrder_fmul isDatum_fHalf (by positivity)).comp (keepsOrder_fadd isDatum_fOne.finite)

theorem keepsOrder_snorm : KeepsOrder snorm :=
  (keepsOrder_fadd ((isFinite_fneg fOne).trans isDatum_fOne.finite)).comp (keepsOrder_fmul isDatum_fTwo (by positivity))

/-! ### Conversion -/

/-- `f2u_sat` of any datum that is no NaN: its whole part, cut off at 0 and at 0xFFFFFFFF. -/
theorem f2uSat_toNat {r : F32} (h : isNaN r = false) :
    (f2uSat r).toNat = min ((signedUnits r).toNat / 2 ^ 149) 0xFFFFFFFF := by
  have hzero := isZero_iff_units r
  rw [f2uSat, h, signedUnits, if_neg Bool.false_ne_true]
  cases signBit r with
  | true => simp
  | false =>
    simp only [Bool.false_or, Bool.false_eq_true, if_false, Int.toNat_natCast, hzero]
    split_ifs with h0 hbig
    · rw [h0]; rfl
    · change 0xFFFFFFFF = _
      omega
    · rw [BitVec.toNat_ofNat]
      omega

theorem f2uSat_toNat_le {r q : F32} (hr : isNaN r = false) (hq : isNaN q = false) (h : signedUnits r ≤ signedUnits q) :
    (f2uSat r).toNat ≤ (f2uSat q).toNat := by
  rw [f2uSat_toNat hr, f2uSat_toNat hq]
  omega

end Sys2Proof.Proofs
end

section
/-! The settlement of O18, O19, O21 and O22: what the primitives give at the ends of their domains bounds, by their
monotonicity, what they give inside (40_primitives.md R95 to R98, R100). -/

namespace Sys2Proof.Proofs

open Sys2Proof Sys2Proof.Machine Sys2Proof.Laws

/-! ### The primitives' places in exec, and their canonical points -/

theorem exec_unorm (x : F32) (s : State) : exec (.unorm x) s = .next (s.withProbe (.unorm (unorm x))) := rfl
theorem exec_q15 (f : F32) (s : State) : exec (.q15 f) s = .next (s.withProbe (.q15 (q15 f))) := rfl
theorem exec_q16 (f : F32) (s : State) : exec (.q16 f) s = .next (s.withProbe (.q16 (q16 f))) := rfl
theorem exec_snorm (q : F32) (s : State) : exec (.snorm q) s = .next (s.withProbe (.snorm (snorm q))) := rfl

/-- Settles O18, one dispatch equation for each primitive. -/
theorem primitivesAlwaysComplete : Obligations.PrimitivesAlwaysComplete :=
  fun s a => ⟨exec_unorm a s, exec_q15 a s, exec_q16 a s, exec_snorm a s⟩

/-- Settles O19, by evaluating the model at each point. -/
theorem primitivesMeetCanonicalPoints : Obligations.PrimitivesMeetCanonicalPoints := by
  unfold Obligations.PrimitivesMeetCanonicalPoints
  decide

/-! ### Negative data and NaNs -/

theorem signBit_rndAway {r : F32} (h : isNaN r = false) : signBit (rndAway r) = signBit r := by
  rcases isInf_or_isFinite h with hinf | hfin
  · rw [rndAway_inf hinf]
  · exact (isDatum_rndAway hfin).sign

/-- A quantizer without its mask gives 0 for a NaN and for a datum whose sign is set, whatever its positive scale. -/
theorem quantize_eq_zero {f k : F32} (hk : signBit k = false) (hf : isNaN f = true ∨ signBit f = true) :
    f2uSat (rndAway (fmul f k)) = 0 := by
  cases hnan : isNaN (fmul f k) with
  | true => rw [rndAway_nan hnan, f2uSat_nan isNaN_canonicalNaN]
  | false =>
    have hsign : signBit f = true := hf.resolve_left fun h => by
      rw [fmul_nan (.inl h), isNaN_canonicalNaN] at hnan
      exact absurd hnan (by decide)
    apply f2uSat_signBit
    rw [signBit_rndAway hnan, signBit_fmul hnan, hsign, hk]
    rfl

/-- Settles O21: the mask of Q15 keeps a 0 as it is. -/
theorem quantizersSendNegativeAndNaNToZero : Obligations.QuantizersSendNegativeAndNaNToZero := by
  intro f hf
  constructor
  · rw [q15, quantize_eq_zero isDatum_fKY.sign hf]
    rfl
  · rw [q16, quantize_eq_zero isDatum_fKX.sign hf]

/-! ### The quantizers keep the order -/

theorem keepsOrder_product {k : F32} (hk : k = fKX ∨ k = fKY) : KeepsOrder fun f => fmul f k := by
  rcases hk with rfl | rfl
  · exact keepsOrder_fmul isDatum_fKX (by decide)
  · exact keepsOrder_fmul isDatum_fKY (by decide)

/-- Scaling and rounding to an integer, the part that both quantizers share. -/
theorem keepsOrder_scale {k : F32} (hk : k = fKX ∨ k = fKY) : KeepsOrder fun f => rndAway (fmul f k) :=
  keepsOrder_rndAway.comp (keepsOrder_product hk)

theorem keepsOrder_scale_fKX : KeepsOrder fun f => rndAway (fmul f fKX) := keepsOrder_scale (.inl rfl)
theorem keepsOrder_scale_fKY : KeepsOrder fun f => rndAway (fmul f fKY) := keepsOrder_scale (.inr rfl)

/-- What a quantizer without its mask gives, for a function of the input that keeps the order. -/
theorem KeepsOrder.f2uSat_mono {g : F32 → F32} (hg : KeepsOrder g) {x y : F32} (hx : isNaN x = false)
    (hy : isNaN y = false) (h : signedUnits x ≤ signedUnits y) : (f2uSat (g x)).toNat ≤ (f2uSat (g y)).toNat :=
  f2uSat_toNat_le (hg.not_nan hx) (hg.not_nan hy) (hg.mono hx hy h)

/-- The Q15 mask keeps the low 16 bits. -/
theorem q15_toNat (f : F32) : (q15 f).toNat = (f2uSat (rndAway (fmul f fKY))).toNat % 2 ^ 16 := by
  rw [q15, toNat_slice, Config.q15Mask, toNat_and_lowMask]
  omega

/-! ### In domain -/

theorem inClosed_iff (lo hi a : F32) : inClosed lo hi a = true ↔
    isNaN a = false ∧ signedUnits lo ≤ signedUnits a ∧ signedUnits a ≤ signedUnits hi := by
  simp [inClosed, and_assoc]

/-- A function that keeps the order takes a closed range into the range between the images of its ends. -/
theorem KeepsOrder.inClosed_image {g : F32 → F32} (hg : KeepsOrder g) {lo hi a : F32} (hlo : isNaN lo = false)
    (hhi : isNaN hi = false) (ha : inClosed lo hi a = true) : inClosed (g lo) (g hi) (g a) = true := by
  obtain ⟨hnan, hle, hge⟩ := (inClosed_iff _ _ _).mp ha
  exact (inClosed_iff _ _ _).mpr ⟨hg.not_nan hnan, hg.mono hlo hnan hle, hg.mono hnan hhi hge⟩

theorem quantizerInDomain_unorm {x : F32} (h : componentInDomain x = true) : quantizerInDomain (unorm x) = true := by
  obtain ⟨hlo, -, hhi, -⟩ := primitivesMeetCanonicalPoints
  have himage := keepsOrder_unorm.inClosed_image (by decide) (by decide) h
  rwa [hlo, hhi] at himage

theorem q16_le {f : F32} (h : quantizerInDomain f = true) : (q16 f).toNat ≤ 65535 := by
  obtain ⟨hnan, -, hle⟩ := (inClosed_iff _ _ _).mp h
  exact (keepsOrder_scale_fKX.f2uSat_mono hnan (by decide) hle).trans_eq (by decide)

theorem q15_toNat_of_inDomain {f : F32} (h : quantizerInDomain f = true) :
    (q15 f).toNat = (f2uSat (rndAway (fmul f fKY))).toNat ∧ (q15 f).toNat ≤ 32767 := by
  obtain ⟨hnan, -, hle⟩ := (inClosed_iff _ _ _).mp h
  have hcode : (f2uSat (rndAway (fmul f fKY))).toNat ≤ 32767 :=
    (keepsOrder_scale_fKY.f2uSat_mono hnan (by decide) hle).trans_eq (by decide)
  have hmask := q15_toNat f
  omega

/-- A vector whose value fits fewer bits is not changed by cutting it down to them. -/
theorem eq_setWidth_setWidth {n m : Nat} {c : BitVec n} (h : c.toNat < 2 ^ m) : c = (c.setWidth m).setWidth n := by
  apply BitVec.eq_of_toNat_eq
  rw [BitVec.toNat_setWidth, BitVec.toNat_setWidth, Nat.mod_eq_of_lt h, Nat.mod_eq_of_lt c.isLt]

/-- Settles O22: each primitive is a composition of operations that keep the order, and the ends of a domain bound what
is between them. -/
theorem primitivesAreMonotoneAndFitInDomain : Obligations.PrimitivesAreMonotoneAndFitInDomain := by
  refine ⟨fun x hx => ?_, fun x y hx hy h => ?_, fun x y hx hy h => ?_, fun x hx => ?_⟩
  · have hunorm := quantizerInDomain_unorm hx
    have h16 := q16_le hunorm
    have h15 := (q15_toNat_of_inDomain hunorm).2
    exact ⟨hunorm, h16, eq_setWidth_setWidth (by omega), h15, eq_setWidth_setWidth (by omega)⟩
  · exact ⟨keepsOrder_unorm.mono hx hy h, keepsOrder_snorm.mono hx hy h, keepsOrder_scale_fKX.f2uSat_mono hx hy h,
      keepsOrder_scale_fKY.f2uSat_mono hx hy h⟩
  · obtain ⟨hxnan, -, -⟩ := (inClosed_iff _ _ _).mp hx
    obtain ⟨hynan, -, -⟩ := (inClosed_iff _ _ _).mp hy
    rw [(q15_toNat_of_inDomain (quantizerInDomain_unorm hx)).1, (q15_toNat_of_inDomain (quantizerInDomain_unorm hy)).1]
    exact ⟨(keepsOrder_scale_fKX.comp keepsOrder_unorm).f2uSat_mono hxnan hynan h,
      (keepsOrder_scale_fKY.comp keepsOrder_unorm).f2uSat_mono hxnan hynan h⟩
  · exact ⟨keepsOrder_unorm.not_nan hx, keepsOrder_snorm.not_nan hx⟩

end Sys2Proof.Proofs
end

section
/-! The settlement of O17 and O20: a rounded integer in range is converted to itself, and an input too small to move
1.0 is normalised to 0.5 (40_primitives.md R94, R95). -/

namespace Sys2Proof.Proofs

open Sys2Proof Sys2Proof.Machine Sys2Proof.Laws

/-! ### Conversion of rounded integers -/

/-- What `rnd_away` gives is an integer, an infinity's 2^277 units included. -/
theorem dvd_signedUnits_rndAway {a : F32} (h : isNaN a = false) : (2 ^ 149 : Int) ∣ signedUnits (rndAway a) := by
  rw [← Int.dvd_natAbs, signedUnits_natAbs]
  rcases isInf_or_isFinite h with hinf | hfin
  · rw [rndAway_inf hinf, (isInf_iff_units a).mp hinf]
    exact_mod_cast pow_dvd_pow 2 (by norm_num)
  · rw [(isDatum_rndAway hfin).magnitude]
    exact_mod_cast Dvd.intro_left _ rfl

/-- A rounded integer from 0 to below 2^32 is converted to itself. -/
theorem f2uSat_rndAway_exact {a : F32} (hnan : isNaN a = false) (h0 : 0 ≤ signedUnits (rndAway a))
    (h : signedUnits (rndAway a) < 2 ^ 32 * 2 ^ 149) :
    signedUnits (rndAway a) = (f2uSat (rndAway a)).toNat * 2 ^ 149 := by
  obtain ⟨n, hn⟩ := dvd_signedUnits_rndAway hnan
  rw [f2uSat_toNat (keepsOrder_rndAway.not_nan hnan)]
  omega

theorem ratValue_of_signedUnits {a : F32} {n : Nat} (h : signedUnits a = n * 2 ^ 149) : ratValue a = n := by
  rw [ratValue, h, Int.cast_mul, Int.cast_natCast, Int.cast_pow, Int.cast_ofNat,
    mul_div_cancel_right₀ _ (by positivity)]

/-- The largest datum below 2^32 is 2^32 - 2^8. -/
theorem f2uSat_rndAway_le {a : F32} (hnan : isNaN a = false) (h0 : 0 < signedUnits (rndAway a))
    (h : signedUnits (rndAway a) < 2 ^ 32 * 2 ^ 149) :
    1 ≤ (f2uSat (rndAway a)).toNat ∧ (f2uSat (rndAway a)).toNat ≤ 4294967040 := by
  have hexact := f2uSat_rndAway_exact hnan h0.le h
  have hunits := signedUnits_natAbs (rndAway a)
  have hle := units_le_of_lt (a := rndAway a) (m := 157) (by omega)
  omega

theorem signedUnits_scale_ends {k : F32} (hk : k = fKX ∨ k = fKY) : 0 ≤ signedUnits (rndAway (fmul fZero k)) ∧
    signedUnits (rndAway (fmul fOne k)) ≤ 65535 * 2 ^ 149 := by
  rcases hk with rfl | rfl <;> decide

/-- A quantizer input in domain is scaled and rounded to a value between the images of 0 and 1. -/
theorem signedUnits_scale_bounds {f k : F32} (hf : quantizerInDomain f = true) (hk : k = fKX ∨ k = fKY) :
    0 ≤ signedUnits (rndAway (fmul f k)) ∧ signedUnits (rndAway (fmul f k)) ≤ 65535 * 2 ^ 149 := by
  have himage := (keepsOrder_scale hk).inClosed_image (by decide) (by decide) hf
  obtain ⟨-, hlo, hhi⟩ := (inClosed_iff _ _ _).mp himage
  obtain ⟨hzero, hone⟩ := signedUnits_scale_ends hk
  exact ⟨hzero.trans hlo, hhi.trans hone⟩

/-- Settles O17, from the conversion of any datum and the integrality of what `rnd_away` gives. -/
theorem integerConversionSaturates : Obligations.IntegerConversionSaturates := by
  refine ⟨fun a => ⟨fun hnan => ?_, fun hnan h => ?_, fun hnan h => ?_, fun hnan h0 h => ?_⟩, fun f k hf hk => ?_⟩
  · rw [rndAway_nan hnan, f2uSat_nan isNaN_canonicalNaN]
  · apply BitVec.eq_of_toNat_eq
    rw [f2uSat_toNat (keepsOrder_rndAway.not_nan hnan), Int.toNat_of_nonpos h]
    rfl
  · apply BitVec.eq_of_toNat_eq
    rw [f2uSat_toNat (keepsOrder_rndAway.not_nan hnan)]
    change _ = 0xFFFFFFFF
    omega
  · exact ⟨(ratValue_of_signedUnits (f2uSat_rndAway_exact hnan h0.le h)).symm, f2uSat_rndAway_le hnan h0 h⟩
  · obtain ⟨hnan, -, -⟩ := (inClosed_iff _ _ _).mp hf
    obtain ⟨hlo, hhi⟩ := signedUnits_scale_bounds hf hk
    have hexact := f2uSat_rndAway_exact ((keepsOrder_product hk).not_nan hnan) hlo (by omega)
    rw [ratValue_of_signedUnits hexact]
    refine ⟨Nat.cast_nonneg _, ?_, rfl⟩
    have hle : (f2uSat (rndAway (fmul f k))).toNat ≤ 65535 := by omega
    exact_mod_cast hle

/-! ### Tiny inputs -/

theorem eq_of_signedUnits_eq {a b : F32} (h : signedUnits a = signedUnits b) (h0 : signedUnits b ≠ 0) : a = b := by
  have hunits : units a = units b := by rw [← signedUnits_natAbs, h, signedUnits_natAbs]
  refine eq_of_signBit_units_eq ?_ hunits
  rw [signedUnits, signedUnits, hunits] at h
  rw [signedUnits] at h0
  revert h h0
  cases signBit a <;> cases signBit b <;> simp

/-- The largest datum below 2^-25. -/
def tinyMax : F32 := 0x32FFFFFF

/-- Settles O20: the two data next to ±2^-25 are normalised to 0.5, and UNORM keeps the order. -/
theorem tinyInputsNormaliseToHalf : Obligations.TinyInputsNormaliseToHalf := by
  intro x hx htiny
  have hlt : units x < 2 ^ 124 := by
    rw [abs_ratValue, div_lt_iff₀ (by positivity),
      show (1 / 2 ^ 25 * 2 ^ 149 : ℚ) = (2 ^ 124 : Nat) by norm_num] at htiny
    exact_mod_cast htiny
  have hle : units x ≤ (2 ^ 24 - 1) * 2 ^ 100 := units_le_of_lt hlt
  obtain ⟨hlo, hhi⟩ := signedUnits_bounds x
  have hends : signedUnits tinyMax = (2 ^ 24 - 1) * 2 ^ 100 ∧ signedUnits (fneg tinyMax) = -((2 ^ 24 - 1) * 2 ^ 100) :=
    ⟨by decide, by decide⟩
  have himages : unorm tinyMax = fHalf ∧ unorm (fneg tinyMax) = fHalf := ⟨by decide, by decide⟩
  have hnan := isNaN_of_isFinite hx
  have hup := keepsOrder_unorm.mono hnan (y := tinyMax) (by decide) (by rw [hends.1]; omega)
  have hdown := keepsOrder_unorm.mono (x := fneg tinyMax) (by decide) hnan (by rw [hends.2]; omega)
  rw [himages.1] at hup
  rw [himages.2] at hdown
  exact eq_of_signedUnits_eq (le_antisymm hup hdown) (by decide)

end Sys2Proof.Proofs
end

section
/-! The settlement of O24 and O23: PACK is the encoder cycle that offers its operand, and an operand offered to a
pipeline is presented when the entries before it have left the queue (41_encoder.md R110, R113). -/

namespace Sys2Proof.Proofs

open Sys2Proof Sys2Proof.Machine Sys2Proof.Laws

/-! ### A pipeline that is offered an operand -/

/-- What a pipeline is offered it presents as many cycles later as its queue is deep. -/
theorem shiftAll_out_offered {α β : Type} (p : Pipe α β) (a : α) (os : List (Option α))
    (hdepth : os.length = p.queue.length) : ((some a :: os).foldl Pipe.shift p).out = some (p.image a) := by
  have hplace : (p.queue ++ some a :: os)[os.length]? = some (some a) := by simp [hdepth]
  rw [shiftAll_out _ p (List.length_cons ..), hplace]
  rfl

/-- A result that is presented in the last of `n + 1` cycles is the latest in the log, with the number of that cycle. -/
theorem shiftAll_log_getLast? {α β : Type} {n : Nat} (os : List (Option α)) (p : Pipe α β) (hn : os.length = n + 1)
    {r : β} (hout : (os.foldl Pipe.shift p).out = some r) :
    (os.foldl Pipe.shift p).log.getLast? = some (p.cycle + n, r) := by
  obtain rfl | ⟨before, o, rfl⟩ := List.eq_nil_or_concat' os
  · cases hn
  · obtain rfl : before.length = n := by simpa using hn
    rw [List.foldl_append, List.foldl_cons, List.foldl_nil] at hout ⊢
    rw [shift_log, hout, shiftAll_cycle, Option.map_some, Option.toList_some, List.getLast?_concat]

/-! ### PACK -/

theorem exec_pack (x y z : F32) (s : State) : exec (.pack x y z) s = .next (s.encCycle (.offer x y z)) := rfl

/-- The cycle in which PACK's operand is presented shifts the encoder by that operand. -/
theorem encPipe_encCycle_offer (s : State) (x y z : F32) :
    encPipe (s.encCycle (.offer x y z)) = (encPipe s).shift (some ⟨x, y, z⟩) :=
  encPipe_encCycle_run s (offer_rst x y z)

/-- Settles O23: the encoder is shifted by the operand, and an encoder cycle changes nothing outside the encoder. -/
theorem packAlwaysCompletes : Obligations.PackAlwaysCompletes := by
  intro s x y z
  have hpipe := encPipe_encCycle_offer s x y z
  refine ⟨s.encCycle (.offer x y z), exec_pack x y z s, ?_, ?_, encCycle_cycle s _, encCycle_encLog s _,
    encCycle_dec s _, encCycle_decLog s _, encCycle_config s _, encCycle_schedule s _, encCycle_probe s _⟩
  · exact (congrArg Pipe.queue hpipe).trans (shift_queue _ _)
  · exact (congrArg Pipe.out hpipe).trans (shift_out _ _)

/-- A run that offers an operand first and has no reset edge after it shifts the encoder by that operand and by what is
offered later. -/
theorem clockAll_offer_encPipe (s : State) (x y z : F32) (es : List Event)
    (hrst : ∀ i ∈ encInputs es, i.rst = false) : encPipe (clockAll (.enc (.offer x y z) :: es) s) =
      (some ⟨x, y, z⟩ :: (encInputs es).map EncIn.offered).foldl Pipe.shift (encPipe s) := by
  rw [clockAll, State.clock, clockAll_encPipe, clockAll_of_no_reset encDrive _ _ hrst, encPipe_encCycle_offer,
    List.foldl_cons]
  rfl

/-- PACK's word written out (41_encoder.md R110). -/
theorem packWord_eq (x y z : F32) : packWord ⟨x, y, z⟩ =
    composeWord (f2uSat (rndAway (fmul (fmul (fadd x 0x3F800000) 0x3F000000) 0x477FFF00)))
      ((f2uSat (rndAway (fmul (fmul (fadd y 0x3F800000) 0x3F000000) 0x46FFFE00)) &&& 0x0000FFFF).extractLsb' 0 16)
      (flt z 0x00000000) := rfl

/-- Settles O24: `ENC_LATENCY` cycles after its own, PACK's operand leaves a queue of that depth. -/
theorem packPresentsItsWordAfterLatency : Obligations.PackPresentsItsWordAfterLatency := by
  refine ⟨fun s x y z es rest hdepths hsched hlength hrst => ?_, by decide⟩
  obtain ⟨hdepth, -⟩ := hdepths
  have hpipe := clockAll_offer_encPipe { s with schedule := rest } x y z es hrst
  have hlen : ((encInputs es).map EncIn.offered).length = s.config.encLatency := by rw [List.length_map, hlength]
  have hout := shiftAll_out_offered (encPipe s) ⟨x, y, z⟩ ((encInputs es).map EncIn.offered)
    (by rw [hlen, encPipe_queue, hdepth])
  have hlast := shiftAll_log_getLast? _ (encPipe s) (by rw [List.length_cons, hlen]) hout
  obtain ⟨hvalid, hword⟩ := encPorts_some ((congrArg Pipe.out hpipe).trans hout)
  refine ⟨_, run_schedule (.enc (.offer x y z) :: es) rest s hsched, hvalid, hword.trans (packWord_eq x y z), ?_⟩
  rw [hword]
  exact (congrArg (·.log.getLast?) hpipe).trans hlast

end Sys2Proof.Proofs
end

section
/-! The settlement of O6 and O26: a composed word is determined by its three fields, and each of them is cut out of one
code alone (41_encoder.md R112, R114). -/

namespace Sys2Proof.Proofs

open Sys2Proof Sys2Proof.Machine Sys2Proof.Laws

/-- The Q15 mask keeps all the bits that are kept after it. -/
theorem extractLsb'_and_lowMask (v : Word) : (v &&& 0xFFFF).extractLsb' 0 16 = v.extractLsb' 0 16 := by
  apply BitVec.eq_of_toNat_eq
  rw [toNat_slice, toNat_slice, toNat_and_lowMask]
  omega

theorem composeWord_fields (w : Word) :
    composeWord ((fieldX w).setWidth 32) ((fieldY w).setWidth 16) (fieldS w) = w := by
  refine eq_of_fields_eq ?_ ?_ (fieldS_composeWord _ _ _)
  · rw [fieldX_composeWord, extractLsb'_setWidth _ (by omega)]
  · rw [fieldY_composeWord, extractLsb'_setWidth _ (by omega)]

/-- Settles O6: what R112 drops of a code is zero in domain, where the codes are at most 65535 and 32767. -/
theorem compositionTruncatesToFields : Obligations.CompositionTruncatesToFields := by
  refine ⟨fun ux uy s => ⟨fieldX_composeWord ux uy s, fieldY_composeWord ux uy s, fieldS_composeWord ux uy s⟩,
    fun ux v s => ?_, composeWord_fields, fun x hx => ?_, fun y hy => ?_⟩
  · rw [extractLsb'_and_lowMask]
  · have hle := q16_le (quantizerInDomain_unorm hx)
    apply BitVec.eq_of_toNat_eq
    rw [toNat_slice, Nat.div_eq_of_lt (by omega)]
    rfl
  · have hle := (q15_toNat_of_inDomain (quantizerInDomain_unorm hy)).2
    exact Nat.testBit_lt_two_pow (by omega)

/-- Settles O26: each field of the word by the law of that field, which names one component only. -/
theorem packLanesAreIndependent : Obligations.PackLanesAreIndependent := by
  refine ⟨fun v => ⟨fieldX_packWord v, fieldY_packWord v, fieldS_packWord v⟩,
    fun v v' => ⟨fun h => ?_, fun h => ?_, fun h => ?_⟩⟩
  · change fieldX (packWord v) = fieldX (packWord v')
    rw [fieldX_packWord, fieldX_packWord, h]
  · change fieldY (packWord v) = fieldY (packWord v')
    rw [fieldY_packWord, fieldY_packWord, h]
  · change fieldS (packWord v) = fieldS (packWord v')
    rw [fieldS_packWord, fieldS_packWord, h]

end Sys2Proof.Proofs
end

section
/-! The settlement of O25 and O27: a comparison with +0.0 sees the sign, the class and whether the datum is zero, and
a component below -1 or a NaN is quantized to 0 (41_encoder.md R111, R116). -/

namespace Sys2Proof.Proofs

open Sys2Proof Sys2Proof.Machine Sys2Proof.Laws

/-! ### The sign flag -/

theorem signedUnits_neg_iff (a : F32) : signedUnits a < 0 ↔ signBit a = true ∧ isZero a = false := by
  rw [isZero_eq_false, signedUnits]
  cases signBit a <;> simp

theorem zSignFlag_iff (z : F32) :
    zSignFlag z = true ↔ signBit z = true ∧ isZero z = false ∧ isNaN z = false := by
  have hzero : signedUnits fZero = 0 := by decide
  have hnan : isNaN fZero = false := by decide
  rw [zSignFlag, flt_iff, hzero, signedUnits_neg_iff]
  tauto

/-- A datum is a zero when the 31 bits below its sign are. -/
theorem isZero_eq_false_iff_bits (z : F32) : isZero z = false ↔ z.extractLsb' 0 31 ≠ 0 := by
  rw [Bool.eq_false_iff, ne_eq, not_iff_not, ← BitVec.toNat_inj, toNat_slice, isZero, Bool.and_eq_true, beq_iff_eq,
    beq_iff_eq, expField_eq_div, fracField_eq_mod]
  change _ ↔ _ = 0
  omega

theorem isNaN_eq_false_iff_bits (z : F32) :
    isNaN z = false ↔ ¬(z.extractLsb' 23 8 = 0xFF ∧ z.extractLsb' 0 23 ≠ 0) := by
  rw [Bool.eq_false_iff, ne_eq, not_iff_not, isNaN, Bool.and_eq_true, beq_iff_eq, bne_iff_ne, ne_eq, ne_eq,
    ← BitVec.toNat_inj, ← BitVec.toNat_inj]
  rfl

/-- Settles O25: the bits that R111 names are those of the sign, of a non-zero magnitude and of no NaN. -/
theorem signFlagIsStrictlyNegative : Obligations.SignFlagIsStrictlyNegative := by
  refine ⟨fun z => ?_, fun x y z z' h => ?_⟩
  · rw [zSignFlag_iff, isZero_eq_false_iff_bits, isNaN_eq_false_iff_bits, signBit]
  · rw [packWord, packWord, h]

/-! ### Components that are quantized to 0 -/

theorem isNaN_unorm {x : F32} (h : isNaN x = true) : isNaN (unorm x) = true := by
  rw [unorm, fmul_nan (.inl ?_), isNaN_canonicalNaN]
  rw [fadd_nan (.inl h), isNaN_canonicalNaN]

/-- The sum of 1 and a datum below -1 is negative. -/
theorem signBit_fadd_fOne {x : F32} (hnan : isNaN x = false) (h : signedUnits x < signedUnits fNegOne) :
    signBit (fadd x fOne) = true := by
  rw [isDatum_fNegOne.signedUnits_eq, if_pos rfl] at h
  rcases isInf_or_isFinite hnan with hinf | hfin
  · rw [fadd_inf_finite hinf isDatum_fOne.finite]
    exact ((signedUnits_neg_iff x).mp (by omega)).1
  · have hsum : signedUnits x + signedUnits fOne < 0 := by
      rw [isDatum_fOne.signedUnits_eq, if_neg Bool.false_ne_true]
      omega
    rw [fadd_finite hfin isDatum_fOne.finite, faddFinite_round hsum.ne, signBit_roundF32, decide_eq_true hsum]

theorem signBit_unorm {x : F32} (hnan : isNaN x = false) (h : signedUnits x < signedUnits fNegOne) :
    signBit (unorm x) = true := by
  rw [unorm, signBit_fmul (keepsOrder_unorm.not_nan hnan), signBit_fadd_fOne hnan h, isDatum_fHalf.sign]
  rfl

theorem packWord_of_isNaN {x y z : F32} (hx : isNaN x = true) (hy : isNaN y = true) (hz : isNaN z = true) :
    packWord ⟨x, y, z⟩ = 0 := by
  obtain ⟨-, hx0⟩ := quantizersSendNegativeAndNaNToZero (unorm x) (.inl (isNaN_unorm hx))
  obtain ⟨hy0, -⟩ := quantizersSendNegativeAndNaNToZero (unorm y) (.inl (isNaN_unorm hy))
  have hz0 : zSignFlag z = false := by simp [zSignFlag, flt, hz]
  rw [packWord, hx0, hy0, hz0]
  decide

theorem fieldX_packWord_of_lt {x y z : F32} (hnan : isNaN x = false) (h : signedUnits x < signedUnits fNegOne) :
    fieldX (packWord ⟨x, y, z⟩) = 0 := by
  obtain ⟨-, hx0⟩ := quantizersSendNegativeAndNaNToZero (unorm x) (.inr (signBit_unorm hnan h))
  rw [fieldX_packWord, hx0]
  rfl

/-- Settles O27: the rows with written-out operands by evaluating the model, the two classes by the lemmas above. -/
theorem packCornerCases : Obligations.PackCornerCases := by
  refine ⟨by decide, by decide, by decide, by decide, by decide, by decide, by decide, by decide, by decide,
    by decide, by decide, by decide, by decide, by decide, by decide,
    fun _ _ _ => packWord_of_isNaN, fun _ _ _ => fieldX_packWord_of_lt⟩

end Sys2Proof.Proofs
end

section
/-! The settlement of O28 and O29: UNPACK is the decoder cycle that offers its word, and a word offered to a pipeline
is presented when the entries before it have left the queue (42_decoder.md R120, R127). -/

namespace Sys2Proof.Proofs

open Sys2Proof Sys2Proof.Machine Sys2Proof.Laws

theorem exec_unpack (w : Word) (s : State) : exec (.unpack w) s = .next (s.decCycle (.offer w)) := rfl

/-- A cycle outside reset shifts the decoder. -/
theorem decPipe_decCycle_run (s : State) {j : DecIn} (h : j.rst = false) :
    decPipe (s.decCycle j) = (decPipe s).shift j.offered := by
  rw [decPipe_decCycle, decDrive, h, Pipe.shift]

/-- The cycle in which UNPACK's word is presented shifts the decoder by that word. -/
theorem decPipe_decCycle_offer (s : State) (w : Word) :
    decPipe (s.decCycle (.offer w)) = (decPipe s).shift (some w) :=
  decPipe_decCycle_run s (offerWord_rst w)

/-- Settles O28: the decoder is shifted by the word, and a decoder cycle changes nothing outside the decoder. -/
theorem unpackAlwaysCompletes : Obligations.UnpackAlwaysCompletes := by
  intro s w
  have hpipe := decPipe_decCycle_offer s w
  refine ⟨s.decCycle (.offer w), exec_unpack w s, ?_, ?_, decCycle_cycle s _, decCycle_decLog s _,
    decCycle_enc s _, decCycle_encLog s _, decCycle_config s _, decCycle_schedule s _, decCycle_probe s _⟩
  · exact (congrArg Pipe.queue hpipe).trans (shift_queue _ _)
  · exact (congrArg Pipe.out hpipe).trans (shift_out _ _)

/-- A run that offers a word first and has no reset edge after it shifts the decoder by that word and by what is
offered later. -/
theorem clockAll_offer_decPipe (s : State) (w : Word) (es : List Event) (hunwired : unwired es = true)
    (hrst : ∀ j ∈ decInputs es, j.rst = false) : decPipe (clockAll (.dec (.offer w) :: es) s) =
      (some w :: (decInputs es).map DecIn.offered).foldl Pipe.shift (decPipe s) := by
  rw [clockAll, State.clock, clockAll_decPipe es _ hunwired, clockAll_of_no_reset decDrive _ _ hrst,
    decPipe_decCycle_offer, List.foldl_cons]
  rfl

/-- The z that UNPACK presents under `CLAMP`, written out (42_decoder.md R124, R125). -/
theorem signedRoot_clamp_eq (rad : F32) (a : Bool) : signedRoot (guardRadicand .clamp rad) a =
    fmul (fsqrt (if flt rad 0x00000000 then 0x00000000 else rad)) (if a then 0xBF800000 else 0x3F800000) := rfl

/-- Settles O29: `DEC_LATENCY` cycles after its own, UNPACK's word leaves a queue of that depth; R120's example is
evaluated. -/
theorem unpackPresentsItsVectorAfterLatency : Obligations.UnpackPresentsItsVectorAfterLatency := by
  refine ⟨fun s w es rest hdepths hunwired hclamp hsched hlength hrst => ?_, by decide, by decide, by decide,
    by decide, by decide, by decide, by decide, by decide, by decide, by decide⟩
  obtain ⟨-, hdepth⟩ := hdepths
  have hpipe := clockAll_offer_decPipe { s with schedule := rest } w es hunwired hrst
  have hlen : ((decInputs es).map DecIn.offered).length = s.config.decLatency := by rw [List.length_map, hlength]
  have hout := shiftAll_out_offered (decPipe s) w ((decInputs es).map DecIn.offered)
    (by rw [hlen, decPipe_queue, hdepth])
  have hlast := shiftAll_log_getLast? _ (decPipe s) (by rw [List.length_cons, hlen]) hout
  have himage : (decPipe s).image = unpackWord .clamp := congrArg unpackWord hclamp
  rw [himage] at hout hlast
  obtain ⟨hvalid, hx, hy, hz, hderr⟩ := decPorts_some ((congrArg Pipe.out hpipe).trans hout)
  rw [unpackWord_x] at hx
  rw [unpackWord_y] at hy
  rw [unpackWord_z, signedRoot_clamp_eq] at hz
  rw [unpackWord_derr] at hderr
  refine ⟨_, _, _, _, run_schedule (.dec (.offer w) :: es) rest s hsched, rfl, rfl, rfl, hvalid, hx, hy, hz, hderr, ?_⟩
  rw [hz, hderr]
  exact (congrArg (·.log.getLast?) hpipe).trans hlast

end Sys2Proof.Proofs
end

section
/-! The settlement of O35 and O40: words and vectors that are written out, evaluated (42_decoder.md R129, R130;
90_conflicts.md C1 to C3). -/

namespace Sys2Proof.Proofs

open Sys2Proof Sys2Proof.Machine Sys2Proof.Laws

/-- Settles O35, by evaluating the model on each word. -/
theorem unpackCornerCases : Obligations.UnpackCornerCases :=
  ⟨by decide, by decide, by decide, by decide, by decide, by decide, by decide, by decide, by decide, by decide,
    by decide⟩

/-- The packed word of C1's unit vector and what the decoder makes of it: its z is above 0.008 (90_conflicts.md C1). -/
theorem roundTrip_of_unit_vector :
    roundTrip .clamp ⟨0xBEDEDCCA, 0xBF6679CC, 0x00000000⟩ = ⟨0xBEDEDADE, 0xBF6677CD, 0x3C06C251, false⟩ := by
  have hword : packWord ⟨0xBEDEDCCA, 0xBF6679CC, 0x00000000⟩ = 0x48490CC4 := by decide
  rw [roundTrip, hword]
  decide

/-- C2's word is decoded to a z of -0.0, whose sign the encoder does not see (90_conflicts.md C2). -/
theorem repack_of_lost_sign : repack .clamp 0xFFFF8001 = 0xFFFF8000 := by
  have hvec : unpackWord .clamp 0xFFFF8001 = ⟨0x3F800000, 0x38000000, 0x80000000, false⟩ := by decide
  rw [repack, hvec]
  decide

/-- The y of 0 in C3's axis vector is packed to the code above 0 (90_conflicts.md C3). -/
theorem roundTrip_of_axis_vector :
    roundTrip .clamp ⟨0x3F800000, 0x00000000, 0x00000000⟩ = ⟨0x3F800000, 0x38000000, 0x00000000, false⟩ := by
  have hword : packWord ⟨0x3F800000, 0x00000000, 0x00000000⟩ = 0xFFFF8000 := by decide
  rw [roundTrip, hword]
  decide

/-- Settles O40, by the three evaluations. -/
theorem unrestrictedRoundTripClaimsFail : Obligations.UnrestrictedRoundTripClaimsFail := by
  refine ⟨?_, by decide, repack_of_lost_sign, ?_⟩
  · rw [roundTrip_of_unit_vector]
    decide
  · rw [roundTrip_of_axis_vector]

end Sys2Proof.Proofs
end

section
/-! Error bounds of the arithmetic: how far one rounding, and then each operation of the block, can be from the exact
value when the size of the result is known (40_primitives.md R81 to R85). -/

namespace Sys2Proof.Proofs

open Sys2Proof Sys2Proof.Machine Sys2Proof.Laws

/-- The factor of a sign bit. -/
def signFactor (s : Bool) : ℚ := if s then -1 else 1

theorem signFactor_bne (s t : Bool) : signFactor (s != t) = signFactor s * signFactor t := by
  cases s <;> cases t <;> norm_num [signFactor]

theorem abs_signFactor (s : Bool) : |signFactor s| = 1 := by
  cases s <;> norm_num [signFactor]

theorem signFactor_mul_natAbs (z : Int) : signFactor (decide (z < 0)) * (z.natAbs : ℚ) = z := by
  rw [Nat.cast_natAbs, Int.cast_abs, signFactor]
  split
  next h =>
    have hz : (z : ℚ) < 0 := by exact_mod_cast of_decide_eq_true h
    rw [abs_of_neg hz]
    ring
  next h =>
    have hz : (0 : ℚ) ≤ z := by exact_mod_cast not_lt.mp fun hlt => h (decide_eq_true hlt)
    rw [abs_of_nonneg hz, one_mul]

theorem IsDatum.ratValue_signed {a : F32} {s : Bool} {u : Nat} (h : IsDatum a s u) :
    ratValue a = signFactor s * (u / 2 ^ 149) := by
  rw [ratValue, h.signedUnits_eq]
  cases s <;> simp [signFactor, neg_div]

/-- `a` is a finite datum at most `ε` away from `x`. -/
structure Approx (a : F32) (x ε : ℚ) : Prop where
  finite : isFinite a = true
  near : |ratValue a - x| ≤ ε

theorem Approx.bounds {a : F32} {x ε : ℚ} (h : Approx a x ε) : x - ε ≤ ratValue a ∧ ratValue a ≤ x + ε := by
  obtain ⟨hlo, hhi⟩ := abs_le.mp h.near
  exact ⟨by linarith, by linarith⟩

theorem approx_self {a : F32} (h : isFinite a = true) : Approx a (ratValue a) 0 := ⟨h, by simp⟩

theorem Approx.weaken {a : F32} {x y ε ε' : ℚ} (h : Approx a x ε) (hxy : x = y) (hε : ε ≤ ε') : Approx a y ε' :=
  ⟨h.finite, hxy ▸ h.near.trans hε⟩

/-- Below 2^(24 + m) units one rounding is off by at most half of 2^m units. -/
theorem approx_roundF32 (s : Bool) {num den m : Nat} (hd : 0 < den) (hm : m ≤ 252)
    (h : (num / den : ℚ) < 2 ^ (24 + m)) :
    Approx (roundF32 s num den) (signFactor s * (num / den / 2 ^ 149)) (2 ^ m / 2 ^ 150) := by
  have hd' : (0 : ℚ) < den := by exact_mod_cast hd
  have hlt : num < 2 ^ (24 + m) * den := by exact_mod_cast (div_lt_iff₀ hd').mp h
  obtain ⟨u, hu, hlo, hhi⟩ := isDatum_roundF32_near s hd hm hlt
  refine ⟨hu.finite, ?_⟩
  have hlo' : (2 * num : ℚ) ≤ (2 * u + 2 ^ m) * den := by exact_mod_cast hlo
  have hhi' : (2 * u * den : ℚ) ≤ 2 * num + den * 2 ^ m := by exact_mod_cast hhi
  have herr : |(u : ℚ) - num / den| ≤ 2 ^ m / 2 := by
    have hnum : (num / den : ℚ) * den = num := div_mul_cancel₀ _ hd'.ne'
    rw [abs_le]
    constructor <;> refine le_of_mul_le_mul_right ?_ hd' <;> linarith
  rw [hu.ratValue_signed, ← mul_sub, abs_mul, abs_signFactor, one_mul, ← sub_div, abs_div,
    abs_of_pos (by positivity : (0 : ℚ) < 2 ^ 149), div_le_iff₀ (by positivity)]
  calc |(u : ℚ) - num / den| ≤ 2 ^ m / 2 := herr
    _ = 2 ^ m / 2 ^ 150 * 2 ^ 149 := by ring

/-- A value near one that is within `ε` of `x` is within the sum of the two errors of `x`. -/
theorem Approx.trans {a : F32} {x y δ ε : ℚ} (h : Approx a y δ) (hxy : |y - x| ≤ ε) : Approx a x (ε + δ) :=
  ⟨h.finite, (abs_sub_le (ratValue a) y x).trans (by linarith [h.near])⟩

theorem Approx.abs_ratValue_le {a : F32} {x ε : ℚ} (h : Approx a x ε) : |ratValue a| ≤ |x| + ε := by
  linarith [abs_sub_abs_le_abs_sub (ratValue a) x, h.near]

/-- The error of one sum. -/
theorem approx_fadd {a c : F32} {m : Nat} (ha : isFinite a = true) (hc : isFinite c = true) (hm : m ≤ 252)
    (h : |ratValue a + ratValue c| < 2 ^ (24 + m) / 2 ^ 149) :
    Approx (fadd a c) (ratValue a + ratValue c) (2 ^ m / 2 ^ 150) := by
  have hsum : ratValue a + ratValue c = ((signedUnits a + signedUnits c : Int) : ℚ) / 2 ^ 149 := by
    rw [ratValue, ratValue, ← add_div, Int.cast_add]
  by_cases h0 : signedUnits a + signedUnits c = 0
  · have hfin : isFinite (fadd a c) = true := by
      rw [fadd_finite_zero ha hc h0]
      split <;> decide
    have hval : ratValue (fadd a c) = 0 := by
      rw [fadd_finite_zero ha hc h0]
      split <;> norm_num [ratValue, show signedUnits fNegZero = 0 by decide, show signedUnits fZero = 0 by decide]
    exact ⟨hfin, by rw [hsum, h0, hval, Int.cast_zero, zero_div, sub_zero, abs_zero]; positivity⟩
  · rw [hsum] at h ⊢
    rw [abs_div, abs_of_pos (by positivity : (0 : ℚ) < 2 ^ 149), div_lt_div_iff_of_pos_right (by positivity),
      ← Int.cast_abs, ← Nat.cast_natAbs] at h
    have hround := approx_roundF32 (decide (signedUnits a + signedUnits c < 0)) Nat.one_pos hm
      (num := (signedUnits a + signedUnits c).natAbs) (by rwa [Nat.cast_one, div_one])
    rwa [Nat.cast_one, div_one, ← mul_div_assoc, signFactor_mul_natAbs, ← faddFinite_round h0, ← fadd_finite ha hc]
      at hround

/-- The error of one product. -/
theorem approx_fmul {a c : F32} {m : Nat} (ha : isFinite a = true) (hc : isFinite c = true) (hm : m ≤ 252)
    (h : |ratValue a * ratValue c| < 2 ^ (24 + m) / 2 ^ 149) :
    Approx (fmul a c) (ratValue a * ratValue c) (2 ^ m / 2 ^ 150) := by
  have habs : |ratValue a * ratValue c| = ((units a * units c : Nat) : ℚ) / (2 ^ 149 : Nat) / 2 ^ 149 := by
    rw [abs_mul, abs_ratValue, abs_ratValue]
    push_cast
    ring
  have hval : ratValue a * ratValue c = signFactor (signBit a != signBit c) *
      (((units a * units c : Nat) : ℚ) / (2 ^ 149 : Nat) / 2 ^ 149) := by
    rw [(isDatum_self ha).ratValue_signed, (isDatum_self hc).ratValue_signed, signFactor_bne]
    push_cast
    ring
  rw [habs, div_lt_div_iff_of_pos_right (by positivity)] at h
  rw [hval, fmul_finite ha hc]
  exact approx_roundF32 _ (by positivity) hm h

/-- The error of a sum by a constant. -/
theorem approx_fadd_const {a c : F32} {x y ε : ℚ} {m : Nat} (ha : Approx a x ε) (hc : isFinite c = true)
    (hy : ratValue c = y) (hm : m ≤ 252) (h : |x + y| + ε < 2 ^ (24 + m) / 2 ^ 149) :
    Approx (fadd a c) (x + y) (ε + 2 ^ m / 2 ^ 150) := by
  subst hy
  have herr : |ratValue a + ratValue c - (x + ratValue c)| ≤ ε := by
    rw [add_sub_add_right_eq_sub]
    exact ha.near
  have hbound : |ratValue a + ratValue c| < 2 ^ (24 + m) / 2 ^ 149 := by
    linarith [abs_sub_abs_le_abs_sub (ratValue a + ratValue c) (x + ratValue c)]
  exact (approx_fadd ha.finite hc hm hbound).trans herr

/-- The error of a product by a positive constant. -/
theorem approx_fmul_const {a c : F32} {x y ε : ℚ} {m : Nat} (ha : Approx a x ε) (hc : isFinite c = true)
    (hy : ratValue c = y) (hpos : 0 < y) (hm : m ≤ 252) (h : (|x| + ε) * y < 2 ^ (24 + m) / 2 ^ 149) :
    Approx (fmul a c) (x * y) (ε * y + 2 ^ m / 2 ^ 150) := by
  subst hy
  have herr : |ratValue a * ratValue c - x * ratValue c| ≤ ε * ratValue c := by
    rw [← sub_mul, abs_mul, abs_of_pos hpos]
    exact mul_le_mul_of_nonneg_right ha.near hpos.le
  have hbound : |ratValue a * ratValue c| < 2 ^ (24 + m) / 2 ^ 149 := by
    rw [abs_mul, abs_of_pos hpos]
    exact (mul_le_mul_of_nonneg_right ha.abs_ratValue_le hpos.le).trans_lt h
  exact (approx_fmul ha.finite hc hm hbound).trans herr

end Sys2Proof.Proofs
end

section
/-! The settlement of O30: the decoded component of a code is so near to its exact value, in comparison with the step
from one code to the next, that rounding keeps the codes' order (42_decoder.md R122). -/

namespace Sys2Proof.Proofs

open Sys2Proof Sys2Proof.Machine Sys2Proof.Laws

/-! ### The four mapping steps -/

theorem ratValue_fOne : ratValue fOne = 1 := by rw [isDatum_fOne.ratValue_eq]; norm_num
theorem ratValue_fHalf : ratValue fHalf = 1 / 2 := by rw [isDatum_fHalf.ratValue_eq]; norm_num
theorem ratValue_fTwo : ratValue fTwo = 2 := by rw [isDatum_fTwo.ratValue_eq]; norm_num

theorem ratValue_fneg (b : F32) : ratValue (fneg b) = -ratValue b := by
  rw [ratValue, ratValue, signedUnits_fneg, Int.cast_neg, neg_div]

/-- The error of SNORM on [0, 1]. -/
theorem approx_snorm {q : F32} {x ε : ℚ} (h : Approx q x ε) (h0 : 0 ≤ x) (h1 : x ≤ 1) (hε : ε ≤ 1 / 8) :
    Approx (snorm q) (2 * x - 1) (2 * ε + 1 / 2 ^ 22) := by
  have hdouble := approx_fmul_const (m := 127) h isDatum_fTwo.finite ratValue_fTwo two_pos (by norm_num)
    (by rw [abs_of_nonneg h0]; norm_num; linarith)
  have hsize : |x * 2 + -1| ≤ 1 := abs_le.mpr ⟨by linarith, by linarith⟩
  have hdiff := approx_fadd_const (m := 127) (y := -1) hdouble ((isFinite_fneg fOne).trans isDatum_fOne.finite)
    (by rw [ratValue_fneg, ratValue_fOne]) (by norm_num) (by norm_num; linarith)
  exact hdiff.weaken (by ring) (by norm_num; linarith)

/-- The error of UNORM on [-1, 1]. -/
theorem approx_unorm {a : F32} {x ε : ℚ} (h : Approx a x ε) (hx : |x| ≤ 1) (hε : ε ≤ 1 / 8) :
    Approx (unorm a) ((x + 1) / 2) (ε / 2 + 1 / 2 ^ 22) := by
  obtain ⟨hlo, hhi⟩ := abs_le.mp hx
  have hsize : |x + 1| ≤ 2 := abs_le.mpr ⟨by linarith, by linarith⟩
  have hsum := approx_fadd_const (m := 127) h isDatum_fOne.finite ratValue_fOne (by norm_num) (by norm_num; linarith)
  have hhalf := approx_fmul_const (m := 127) hsum isDatum_fHalf.finite ratValue_fHalf (by norm_num) (by norm_num)
    (by norm_num; linarith)
  exact hhalf.weaken (by ring) (by norm_num; linarith)

/-! ### The scales and their codes -/

/-- `k` is the datum of a scale of `K` steps, of a size between those of the two quantizers. -/
structure IsScale (k : F32) (K : Nat) : Prop where
  datum : IsDatum k false (K * 2 ^ 149)
  ge : 32767 ≤ K
  le : K ≤ 65535

theorem isScale_fKX : IsScale fKX 65535 := ⟨isDatum_fKX, by norm_num, by norm_num⟩
theorem isScale_fKY : IsScale fKY 32767 := ⟨isDatum_fKY, by norm_num, by norm_num⟩

theorem IsScale.ratValue_eq {k : F32} {K : Nat} (h : IsScale k K) : ratValue k = K := by
  rw [h.datum.ratValue_eq, Nat.cast_mul, Nat.cast_pow, Nat.cast_ofNat, mul_div_cancel_right₀ _ (by positivity)]

theorem IsScale.pos {k : F32} {K : Nat} (h : IsScale k K) : (0 : ℚ) < K := by
  exact_mod_cast (by norm_num : 0 < 32767).trans_le h.ge

/-- The component of a code (42_decoder.md R122), for either scale. -/
def decodeCode (k : F32) (n : BitVec 16) : F32 := snorm (fdiv (u2f n) k)

theorem decodeX_eq (c : BitVec 16) : decodeX c = decodeCode fKX c := rfl
theorem decodeY_eq (c : BitVec 15) : decodeY c = decodeCode fKY (c.setWidth 16) := rfl

section
variable {k : F32} {K : Nat} (hk : IsScale k K)
include hk

theorem fdiv_u2f_eq (n : BitVec 16) :
    fdiv (u2f n) k = roundF32 false (n.toNat * 2 ^ 149 * 2 ^ 149) (K * 2 ^ 149) := by
  have hpos : 0 < units k := by
    have := hk.ge
    rw [hk.datum.magnitude]
    positivity
  rw [fdiv_finite (isDatum_u2f n).finite hk.datum.finite (isZero_eq_false.mpr hpos), (isDatum_u2f n).magnitude,
    (isDatum_u2f n).sign, hk.datum.magnitude, hk.datum.sign, bne_self_eq_false]

/-- The error of the quotient of a code. -/
theorem approx_quotient {n : BitVec 16} (hn : n.toNat ≤ K) : Approx (fdiv (u2f n) k) (n.toNat / K) (1 / 2 ^ 23) := by
  have hpos := hk.pos
  have hle : (n.toNat : ℚ) / K ≤ 1 := div_le_one_of_le₀ (by exact_mod_cast hn) hpos.le
  have hquot : ((n.toNat * 2 ^ 149 * 2 ^ 149 : Nat) : ℚ) / (K * 2 ^ 149 : Nat) = n.toNat / K * 2 ^ 149 := by
    rw [Nat.cast_mul, Nat.cast_mul K, mul_div_mul_right _ _ (by positivity), Nat.cast_mul, Nat.cast_pow,
      Nat.cast_ofNat, mul_div_right_comm]
  rw [fdiv_u2f_eq hk]
  have hround := approx_roundF32 false (m := 127) (num := n.toNat * 2 ^ 149 * 2 ^ 149) (den := K * 2 ^ 149)
    (by exact_mod_cast (by positivity : (0 : ℚ) < K * 2 ^ 149)) (by norm_num) (by rw [hquot]; norm_num; linarith)
  rw [hquot, mul_div_cancel_right₀ _ (by positivity)] at hround
  exact hround.weaken (one_mul _) (by norm_num)

/-- A decoded component is within 2^-21 of its exact value. -/
theorem approx_decodeCode {n : BitVec 16} (hn : n.toNat ≤ K) :
    Approx (decodeCode k n) (2 * (n.toNat / K) - 1) (1 / 2 ^ 21) := by
  have hle : (n.toNat : ℚ) / K ≤ 1 := div_le_one_of_le₀ (by exact_mod_cast hn) hk.pos.le
  exact (approx_snorm (approx_quotient hk hn) (by positivity) hle (by norm_num)).weaken rfl (by norm_num)

/-- Two codes' exact components are 2^-15 apart at least, and the errors are much smaller. -/
theorem ratValue_decodeCode_lt {n n' : BitVec 16} (hlt : n.toNat < n'.toNat) (hn' : n'.toNat ≤ K) :
    ratValue (decodeCode k n) < ratValue (decodeCode k n') := by
  obtain ⟨-, hup⟩ := (approx_decodeCode hk (hlt.le.trans hn')).bounds
  obtain ⟨hlo, -⟩ := (approx_decodeCode hk hn').bounds
  have hstep : (n.toNat : ℚ) / K + 1 / 65535 ≤ n'.toNat / K := by
    have hK : (K : ℚ) ≤ 65535 := by exact_mod_cast hk.le
    have hinv : (1 : ℚ) / 65535 ≤ 1 / K := one_div_le_one_div_of_le hk.pos hK
    have hcodes : (n.toNat : ℚ) + 1 ≤ n'.toNat := by exact_mod_cast hlt
    calc (n.toNat : ℚ) / K + 1 / 65535 ≤ n.toNat / K + 1 / K := by linarith
      _ = (n.toNat + 1) / K := by ring
      _ ≤ n'.toNat / K := div_le_div_of_nonneg_right hcodes hk.pos.le
  linarith

theorem flt_decodeCode {n n' : BitVec 16} (hlt : n.toNat < n'.toNat) (hn' : n'.toNat ≤ K) :
    flt (decodeCode k n) (decodeCode k n') = true :=
  (flt_iff _ _).mpr ⟨isNaN_of_isFinite (approx_decodeCode hk (hlt.le.trans hn')).finite,
    isNaN_of_isFinite (approx_decodeCode hk hn').finite,
    (ratValue_lt_ratValue_iff _ _).mp (ratValue_decodeCode_lt hk hlt hn')⟩

theorem signedUnits_decodeCode_mono {n n' : BitVec 16} (hle : n.toNat ≤ n'.toNat) (hn' : n'.toNat ≤ K) :
    signedUnits (decodeCode k n) ≤ signedUnits (decodeCode k n') := by
  rcases hle.eq_or_lt with heq | hlt
  · rw [BitVec.eq_of_toNat_eq heq]
  · exact ((ratValue_lt_ratValue_iff _ _).mp (ratValue_decodeCode_lt hk hlt hn')).le

/-- Quotients keep the order of the codes. -/
theorem units_quotient_mono {n n' : BitVec 16} (hle : n.toNat ≤ n'.toNat) :
    units (fdiv (u2f n) k) ≤ units (fdiv (u2f n') k) := by
  have hpos : 0 < K * 2 ^ 149 := by exact_mod_cast (mul_pos hk.pos (by positivity) : (0 : ℚ) < K * 2 ^ 149)
  rw [fdiv_u2f_eq hk, fdiv_u2f_eq hk]
  exact units_roundF32_mono _ _ hpos (by gcongr)

theorem quantizerInDomain_quotient {n top : BitVec 16} (htop : fdiv (u2f top) k = fOne) (hle : n.toNat ≤ top.toNat) :
    quantizerInDomain (fdiv (u2f n) k) = true := by
  have hmono := units_quotient_mono hk hle
  have hsign : signBit (fdiv (u2f n) k) = false := by
    rw [fdiv_u2f_eq hk]
    exact signBit_roundF32 _ _ _
  have hnan : isNaN (fdiv (u2f n) k) = false := by
    rw [fdiv_u2f_eq hk]
    exact isNaN_roundF32 _ _ _
  have hzero : signedUnits fZero = 0 := by decide
  rw [htop, isDatum_fOne.magnitude] at hmono
  refine (inClosed_iff _ _ _).mpr ⟨hnan, ?_⟩
  rw [hzero, isDatum_fOne.signedUnits_eq, signedUnits, hsign]
  simp only [Bool.false_eq_true, if_false]
  omega

/-- Components are in [-1, 1], as those of the first and the last code are. -/
theorem componentInDomain_decodeCode {n top : BitVec 16} (hfirst : decodeCode k 0 = fNegOne)
    (hlast : decodeCode k top = fOne) (htop : top.toNat = K) (hn : n.toNat ≤ K) :
    componentInDomain (decodeCode k n) = true := by
  have hlo := signedUnits_decodeCode_mono hk (n := 0) (Nat.zero_le n.toNat) hn
  have hhi := signedUnits_decodeCode_mono hk (htop ▸ hn) htop.le
  rw [hfirst] at hlo
  rw [hlast] at hhi
  exact (inClosed_iff _ _ _).mpr ⟨isNaN_of_isFinite (approx_decodeCode hk hn).finite, hlo, hhi⟩

/-- If zero is in the middle between two consecutive components, no component is nearer to it than these. -/
theorem le_units_decodeCode {n below above : BitVec 16} {u : Nat} (hnext : above.toNat = below.toNat + 1)
    (hbelow : signedUnits (decodeCode k below) = -u) (habove : signedUnits (decodeCode k above) = u)
    (hle : above.toNat ≤ K) (hn : n.toNat ≤ K) : u ≤ units (decodeCode k n) := by
  have habs := signedUnits_natAbs (decodeCode k n)
  rcases Nat.lt_or_ge n.toNat above.toNat with h | h
  · have := signedUnits_decodeCode_mono hk (n := n) (n' := below) (by omega) (by omega)
    omega
  · have := signedUnits_decodeCode_mono hk h hn
    omega

end

/-! ### The x codes and the y codes -/

theorem toNat_xCode_le (c : BitVec 16) : c.toNat ≤ 65535 := Nat.le_of_lt_succ c.isLt

theorem toNat_yCode (c : BitVec 15) : (c.setWidth 16).toNat = c.toNat :=
  BitVec.toNat_setWidth_of_le (by norm_num)

theorem toNat_yCode_le (c : BitVec 15) : (c.setWidth 16).toNat ≤ 32767 := by
  rw [toNat_yCode]
  exact Nat.le_of_lt_succ c.isLt

/-- `a` is in [-1, 1] and at least `u` units away from zero. -/
structure IsComponent (u : Nat) (a : F32) : Prop where
  inDomain : componentInDomain a = true
  ge : u ≤ units a

/-- Every x component is 2^-16 away from zero at least. -/
theorem isComponent_decodeX (c : BitVec 16) : IsComponent (2 ^ 133) (decodeX c) :=
  ⟨componentInDomain_decodeCode isScale_fKX (top := 65535) (by decide) (by decide) rfl (toNat_xCode_le c),
    le_units_decodeCode isScale_fKX (below := 32767) (above := 32768) rfl (by decide) (by decide) (by decide)
      (toNat_xCode_le c)⟩

/-- Every y component is 2^-15 away from zero at least. -/
theorem isComponent_decodeY (c : BitVec 15) : IsComponent (2 ^ 134) (decodeY c) :=
  ⟨componentInDomain_decodeCode isScale_fKY (top := 32767) (by decide) (by decide) rfl (toNat_yCode_le c),
    le_units_decodeCode isScale_fKY (below := 16383) (above := 16384) rfl (by decide) (by decide) (by decide)
      (toNat_yCode_le c)⟩

theorem units_le_of_componentInDomain {a : F32} (h : componentInDomain a = true) : units a ≤ 2 ^ 149 := by
  obtain ⟨-, hlo, hhi⟩ := (inClosed_iff _ _ _).mp h
  have habs := signedUnits_natAbs a
  rw [isDatum_fNegOne.signedUnits_eq, if_pos rfl] at hlo
  rw [isDatum_fOne.signedUnits_eq, if_neg Bool.false_ne_true] at hhi
  omega

/-- Between two finite data there are finite data only. -/
theorem isFinite_of_inClosed {lo hi a : F32} (hlo : isFinite lo = true) (hhi : isFinite hi = true)
    (h : inClosed lo hi a = true) : isFinite a = true := by
  obtain ⟨hnan, hle, hge⟩ := (inClosed_iff _ _ _).mp h
  obtain ⟨hbelow, -⟩ := signedUnits_of_isFinite hlo
  obtain ⟨-, habove⟩ := signedUnits_of_isFinite hhi
  refine (isInf_or_isFinite hnan).resolve_left fun hinf => ?_
  have hval := signedUnits_of_isInf hinf
  split at hval <;> omega

theorem isFinite_of_componentInDomain {a : F32} (h : componentInDomain a = true) : isFinite a = true :=
  isFinite_of_inClosed isDatum_fNegOne.finite isDatum_fOne.finite h

theorem IsComponent.finite {u : Nat} {a : F32} (h : IsComponent u a) : isFinite a = true :=
  isFinite_of_componentInDomain h.inDomain

theorem IsComponent.not_zero {u : Nat} {a : F32} (h : IsComponent u a) (hu : 0 < u) : isZero a = false :=
  isZero_eq_false.mpr (hu.trans_le h.ge)

/-- Settles O30: the ends are evaluated, and the rest is what holds of the codes of either scale. -/
theorem decodedComponentsAreStrictlyIncreasing : Obligations.DecodedComponentsAreStrictlyIncreasing := by
  refine ⟨fun c => ⟨(integerToFloatIsExact c).2, rfl⟩, fun c => ⟨?_, rfl⟩, fun c => ?_, fun c => ?_,
    fun c c' h => flt_decodeCode isScale_fKX h (toNat_xCode_le c'), fun c c' h => ?_, by decide, by decide, by decide,
    by decide, by decide, by decide, by decide, by decide⟩
  · rw [(integerToFloatIsExact _).2, toNat_yCode]
  · have hx := isComponent_decodeX c
    exact ⟨quantizerInDomain_quotient isScale_fKX (top := 65535) (by decide) (toNat_xCode_le c), hx.inDomain, hx.finite,
      hx.not_zero (by positivity)⟩
  · have hy := isComponent_decodeY c
    exact ⟨quantizerInDomain_quotient isScale_fKY (top := 32767) (by decide) (toNat_yCode_le c), hy.inDomain, hy.finite,
      hy.not_zero (by positivity)⟩
  · rw [← toNat_yCode c, ← toNat_yCode c'] at h
    exact flt_decodeCode isScale_fKY h (toNat_yCode_le c')

end Sys2Proof.Proofs
end

section
/-! The settlement of O36 and O39: the quantizer's argument is within 1/16 of the exact scaled component, so the code is
within 9/16 of it, which is less than a code and far inside the acceptance tolerance (42_decoder.md R128, R130,
R131). -/

namespace Sys2Proof.Proofs

open Sys2Proof Sys2Proof.Machine Sys2Proof.Laws

/-- Rounding to an integer and converting it is off by 1/2 at most, for a datum from -1/2 to 2^17. -/
theorem f2uSat_rndAway_near {p : F32} (hfin : isFinite p = true) (hlo : -(1 / 2) ≤ ratValue p)
    (hhi : ratValue p ≤ 2 ^ 17) : |((f2uSat (rndAway p)).toNat : ℚ) - ratValue p| ≤ 1 / 2 := by
  have hround := isDatum_rndAway hfin
  rw [f2uSat_toNat (isNaN_of_isFinite hround.finite), hround.signedUnits_eq]
  cases hs : signBit p with
  | true =>
    have hneg : ratValue p ≤ 0 := by
      rw [(isDatum_self hfin).ratValue_signed, hs, signFactor, if_pos rfl, neg_one_mul, neg_nonpos]
      positivity
    simp only [if_true, Int.toNat_neg_natCast, Nat.zero_div, Nat.zero_min, Nat.cast_zero, zero_sub, abs_neg]
    rw [abs_of_nonpos hneg]
    linarith
  | false =>
    have hval : ratValue p * 2 ^ 149 = units p := by
      rw [(isDatum_self hfin).ratValue_signed, hs, signFactor, if_neg Bool.false_ne_true, one_mul,
        div_mul_cancel₀ _ (by positivity)]
    have hunits : units p ≤ 2 ^ 17 * 2 ^ 149 := by
      have : (units p : ℚ) ≤ 2 ^ 17 * 2 ^ 149 := by
        rw [← hval]
        gcongr
      exact_mod_cast this
    have hcode : min (awayInteger p * 2 ^ 149 / 2 ^ 149) 0xFFFFFFFF = awayInteger p := by
      unfold awayInteger
      omega
    have hbelow : (awayInteger p : ℚ) * 2 ^ 150 ≤ 2 * units p + 2 ^ 149 := by
      exact_mod_cast Nat.div_mul_le_self (2 * units p + 2 ^ 149) (2 ^ 150)
    have habove : (2 * units p + 2 ^ 149 : ℚ) ≤ (awayInteger p + 1) * 2 ^ 150 := by
      have : 2 * units p + 2 ^ 149 ≤ (awayInteger p + 1) * 2 ^ 150 := by unfold awayInteger; omega
      exact_mod_cast this
    simp only [Bool.false_eq_true, if_false, Int.toNat_natCast, hcode]
    rw [← hval] at hbelow habove
    rw [abs_le]
    constructor <;> linarith

theorem eq_of_abs_cast_sub_lt_one {m n : Nat} (h : |(m : ℚ) - n| < 1) : m = n := by
  have hint : |(m : Int) - n| < 1 := by exact_mod_cast h
  have := Int.abs_lt_one_iff.mp hint
  omega

section
variable {k : F32} {K : Nat} (hk : IsScale k K)
include hk

/-- The code of a component near `x` is within 9/16 of the exact scaled one. -/
theorem quantize_unorm_near {a : F32} {x ε : ℚ} (h : Approx a x ε) (hx : |x| ≤ 1) (hε : ε ≤ 1 / 2 ^ 21) :
    |((f2uSat (rndAway (fmul (unorm a) k))).toNat : ℚ) - (x + 1) / 2 * K| ≤ 9 / 16 := by
  obtain ⟨hxlo, hxhi⟩ := abs_le.mp hx
  have hpos := hk.pos
  have hK : (K : ℚ) ≤ 65535 := by exact_mod_cast hk.le
  have hnorm : Approx (unorm a) ((x + 1) / 2) (1 / 2 ^ 21) :=
    (approx_unorm h hx (hε.trans (by norm_num))).weaken rfl (by linarith)
  have hscaled_nonneg : 0 ≤ (x + 1) / 2 * K := mul_nonneg (by linarith) hpos.le
  have hscaled_le : (x + 1) / 2 * K ≤ K := mul_le_of_le_one_left hpos.le (by linarith)
  have hprod := (approx_fmul_const (m := 142) hnorm hk.datum.finite hk.ratValue_eq hpos (by norm_num) (by
    rw [abs_of_nonneg (by linarith), add_mul]
    norm_num
    linarith)).weaken (ε' := 1 / 16) rfl (by norm_num; linarith)
  obtain ⟨hlo, hhi⟩ := hprod.bounds
  have hcode := f2uSat_rndAway_near hprod.finite (by linarith) (by norm_num; linarith)
  calc |((f2uSat (rndAway (fmul (unorm a) k))).toNat : ℚ) - (x + 1) / 2 * K|
      ≤ |((f2uSat (rndAway (fmul (unorm a) k))).toNat : ℚ) - ratValue (fmul (unorm a) k)|
        + |ratValue (fmul (unorm a) k) - (x + 1) / 2 * K| := abs_sub_le _ _ _
    _ ≤ 9 / 16 := by linarith [hprod.near]

theorem abs_exact_component_le (n : Nat) (hn : n ≤ K) : |2 * ((n : ℚ) / K) - 1| ≤ 1 := by
  have hle : (n : ℚ) / K ≤ 1 := div_le_one_of_le₀ (by exact_mod_cast hn) hk.pos.le
  have hnonneg : 0 ≤ (n : ℚ) / K := by positivity
  exact abs_le.mpr ⟨by linarith, by linarith⟩

/-- Every code is what its component is quantized to. -/
theorem quantize_decodeCode {n : BitVec 16} (hn : n.toNat ≤ K) :
    (f2uSat (rndAway (fmul (unorm (decodeCode k n)) k))).toNat = n.toNat := by
  have hnear := quantize_unorm_near hk (approx_decodeCode hk hn) (abs_exact_component_le hk _ hn) le_rfl
  have hexact : (2 * ((n.toNat : ℚ) / K) - 1 + 1) / 2 * K = n.toNat := by
    have := hk.pos.ne'
    field_simp
    ring
  rw [hexact] at hnear
  exact eq_of_abs_cast_sub_lt_one (hnear.trans_lt (by norm_num))

end

/-- Settles O36: the Q15 mask keeps all the bits of a y code. -/
theorem requantizationIsIdentity : Obligations.RequantizationIsIdentity := by
  refine ⟨fun c => BitVec.eq_of_toNat_eq ?_, fun c => BitVec.eq_of_toNat_eq ?_⟩
  · rw [decodeX_eq, q16, quantize_decodeCode isScale_fKX (toNat_xCode_le c), BitVec.toNat_setWidth_of_le (by norm_num)]
  · have hc := toNat_yCode_le c
    rw [decodeY_eq, q15_toNat, quantize_decodeCode isScale_fKY hc, Nat.mod_eq_of_lt (by omega)]

/-! ### The round trip -/

theorem abs_ratValue_le_one {a : F32} (h : componentInDomain a = true) : |ratValue a| ≤ 1 := by
  have hle : (units a : ℚ) ≤ 2 ^ 149 := by exact_mod_cast units_le_of_componentInDomain h
  rw [abs_ratValue]
  exact div_le_one_of_le₀ hle (by positivity)

/-- The acceptance predicate of 42_decoder.md R131, over the rationals. -/
theorem approxEq_of_abs_sub_le {a b : F32} (ha : isFinite a = true) (hb : isFinite b = true)
    (h : |ratValue a - ratValue b| ≤ 5 / 1000) : approxEq a b = true := by
  have hunits : 1000 * (signedUnits a - signedUnits b).natAbs ≤ 5 * 2 ^ 149 := by
    rw [ratValue, ratValue, ← sub_div, abs_div, abs_of_pos (by positivity : (0 : ℚ) < 2 ^ 149),
      div_le_iff₀ (by positivity), ← Int.cast_sub, ← Int.cast_abs, ← Nat.cast_natAbs] at h
    have : (1000 * (signedUnits a - signedUnits b).natAbs : ℚ) ≤ 5 * 2 ^ 149 := by linarith
    exact_mod_cast this
  simp only [approxEq, ha, hb, Bool.true_and, decide_eq_true_eq]
  exact hunits

/-- Codes and components: 9/16 of a code is less than 1/1000 of a component. -/
theorem abs_exact_component_sub_le {k : F32} {K n : Nat} (hk : IsScale k K) {x : ℚ}
    (h : |(n : ℚ) - (x + 1) / 2 * K| ≤ 9 / 16) : |2 * ((n : ℚ) / K) - 1 - x| ≤ 1 / 1000 := by
  have hpos := hk.pos
  have hK : (32767 : ℚ) ≤ K := by exact_mod_cast hk.ge
  have hfactor : 2 * ((n : ℚ) / K) - 1 - x = 2 / K * (n - (x + 1) / 2 * K) := by
    field_simp
    ring
  have hstep : (2 : ℚ) / K ≤ 2 / 32767 := div_le_div_of_nonneg_left (by norm_num) (by norm_num) hK
  rw [hfactor, abs_mul, abs_of_pos (by positivity)]
  calc 2 / (K : ℚ) * |n - (x + 1) / 2 * K| ≤ 2 / 32767 * (9 / 16) := by gcongr
    _ ≤ 1 / 1000 := by norm_num

/-- The component of a code that a component in domain is quantized to is within the tolerance of it. -/
theorem approxEq_decodeCode {k : F32} {K : Nat} (hk : IsScale k K) {a : F32} (ha : componentInDomain a = true)
    {n : BitVec 16} (hn : n.toNat = (f2uSat (rndAway (fmul (unorm a) k))).toNat) :
    approxEq (decodeCode k n) a = true := by
  have hfin := isFinite_of_componentInDomain ha
  have hone := abs_ratValue_le_one ha
  have hnear := quantize_unorm_near hk (approx_self hfin) hone (by norm_num)
  rw [← hn] at hnear
  have hle : n.toNat ≤ K := by
    have hscaled : (ratValue a + 1) / 2 * K ≤ K := mul_le_of_le_one_left hk.pos.le (by linarith [(abs_le.mp hone).2])
    have hlt : (n.toNat : ℚ) < K + 1 := by linarith [(abs_le.mp hnear).2]
    exact Nat.lt_succ_iff.mp (by exact_mod_cast hlt)
  have hdecode := approx_decodeCode hk hle
  refine approxEq_of_abs_sub_le hdecode.finite hfin ?_
  calc |ratValue (decodeCode k n) - ratValue a|
      ≤ |ratValue (decodeCode k n) - (2 * (n.toNat / K) - 1)| + |2 * ((n.toNat : ℚ) / K) - 1 - ratValue a| :=
        abs_sub_le _ _ _
    _ ≤ 1 / 2 ^ 21 + 1 / 1000 := add_le_add hdecode.near (abs_exact_component_sub_le hk hnear)
    _ ≤ 5 / 1000 := by norm_num

/-- Settles O39: in domain no bit of a code is lost in the word (41_encoder.md R112). -/
theorem roundTripKeepsXAndYWithinTolerance : Obligations.RoundTripKeepsXAndYWithinTolerance := by
  intro policy v hv
  obtain ⟨hx, hy⟩ := Bool.and_eq_true_iff.mp hv
  rw [roundTrip, unpackWord_x, unpackWord_y, decodeX_eq, decodeY_eq]
  constructor
  · have hle := q16_le (quantizerInDomain_unorm hx)
    refine approxEq_decodeCode isScale_fKX hx ?_
    rw [fieldX_packWord, toNat_slice, pow_zero, Nat.div_one, Nat.mod_eq_of_lt (by omega), q16]
  · obtain ⟨hcode, hle⟩ := q15_toNat_of_inDomain (quantizerInDomain_unorm hy)
    refine approxEq_decodeCode isScale_fKY hy ?_
    rw [toNat_yCode, fieldY_packWord, BitVec.extractLsb'_toNat, Nat.shiftRight_zero, Nat.mod_eq_of_lt (by omega), hcode]

end Sys2Proof.Proofs
end

section
/-! The settlement of O31: sums, squares and differences keep the order of their operands, so the parts of the radicand
lie between what they are for the components nearest to zero and for 1 (42_decoder.md R123). -/

namespace Sys2Proof.Proofs

open Sys2Proof Sys2Proof.Machine Sys2Proof.Laws

/-! ### Order and sign of sums, differences and squares -/

theorem signedUnits_fadd_mono {a b a' b' : F32} (ha : isFinite a = true) (hb : isFinite b = true)
    (ha' : isFinite a' = true) (hb' : isFinite b' = true) (hle : signedUnits a ≤ signedUnits a')
    (hle' : signedUnits b ≤ signedUnits b') : signedUnits (fadd a b) ≤ signedUnits (fadd a' b') := by
  rw [signedUnits_fadd ha hb, signedUnits_fadd ha' hb']
  exact signedUnits_roundF32_mono Nat.one_pos (add_le_add hle hle')

/-- A sum is negative exactly when the exact sum is: no exact sum but zero is rounded to zero. -/
theorem signedUnits_fadd_neg_iff {a b : F32} (ha : isFinite a = true) (hb : isFinite b = true) :
    signedUnits (fadd a b) < 0 ↔ signedUnits a + signedUnits b < 0 := by
  rw [signedUnits_fadd ha hb]
  have hzero : signedUnits (roundF32 (decide ((0 : Int) < 0)) (0 : Int).natAbs 1) = 0 := by decide
  have hminus : signedUnits (roundF32 (decide ((-1 : Int) < 0)) (-1 : Int).natAbs 1) = -1 := by decide
  rcases lt_or_ge (signedUnits a + signedUnits b) 0 with h | h
  · have hle : signedUnits a + signedUnits b ≤ -1 := by omega
    have hmono := signedUnits_roundF32_mono Nat.one_pos hle
    rw [hminus] at hmono
    exact iff_of_true (by omega) h
  · have hmono := signedUnits_roundF32_mono Nat.one_pos h
    rw [hzero] at hmono
    exact iff_of_false hmono.not_gt h.not_gt

theorem signedUnits_fsub_antitone {a b b' : F32} (ha : isFinite a = true) (hb : isFinite b = true)
    (hb' : isFinite b' = true) (hle : signedUnits b ≤ signedUnits b') :
    signedUnits (fsub a b') ≤ signedUnits (fsub a b) := by
  refine signedUnits_fadd_mono ha ((isFinite_fneg b').trans hb') ha ((isFinite_fneg b).trans hb) le_rfl ?_
  rw [signedUnits_fneg, signedUnits_fneg]
  exact neg_le_neg hle

theorem signedUnits_fsub_neg_iff {a b : F32} (ha : isFinite a = true) (hb : isFinite b = true) :
    signedUnits (fsub a b) < 0 ↔ signedUnits a < signedUnits b := by
  rw [fsub, signedUnits_fadd_neg_iff ha ((isFinite_fneg b).trans hb), signedUnits_fneg, ← sub_eq_add_neg, sub_neg]

/-- A difference from a datum with a clear sign bit has its sign bit set only if it is negative. -/
theorem signBit_fsub {a b : F32} (ha : isFinite a = true) (hb : isFinite b = true) (hs : signBit a = false) :
    signBit (fsub a b) = decide (signedUnits a < signedUnits b) := by
  have hsum : signedUnits a + signedUnits (fneg b) = signedUnits a - signedUnits b := by
    rw [signedUnits_fneg, sub_eq_add_neg]
  rw [fsub, fadd_finite ha ((isFinite_fneg b).trans hb)]
  by_cases h0 : signedUnits a + signedUnits (fneg b) = 0
  · rw [faddFinite_zero h0, signBit_ofSignMag, hs, Bool.false_and, decide_eq_false (by omega)]
  · rw [faddFinite_round h0, signBit_roundF32, hsum, decide_eq_decide, sub_neg]

theorem fsub_ne_fNegZero {a b : F32} (ha : isFinite a = true) (hb : isFinite b = true) (hs : signBit a = false) :
    fsub a b ≠ fNegZero := by
  intro h
  have hsign : decide (signedUnits a < signedUnits b) = true := by
    rw [← signBit_fsub ha hb hs, h]
    decide
  have hneg := (signedUnits_fsub_neg_iff ha hb).mpr (of_decide_eq_true hsign)
  rw [h] at hneg
  exact absurd hneg (by decide)

theorem fmul_self_finite {a : F32} (ha : isFinite a = true) :
    fmul a a = roundF32 false (units a * units a) (2 ^ 149) := by
  rw [fmul_finite ha ha, bne_self_eq_false]

theorem signedUnits_square_mono {a b : F32} (ha : isFinite a = true) (hb : isFinite b = true)
    (hle : units a ≤ units b) : signedUnits (fmul a a) ≤ signedUnits (fmul b b) := by
  have hmono := units_roundF32_mono false false (den := 2 ^ 149) (by positivity) (Nat.mul_le_mul hle hle)
  rw [fmul_self_finite ha, fmul_self_finite hb]
  simpa only [signedUnits, signBit_roundF32, Bool.false_eq_true, if_false, Nat.cast_le] using hmono

/-! ### The parts of the radicand -/

/-- The square of a component lies between that of the least magnitude and 1. -/
theorem IsComponent.inClosed_square {u : Nat} {a least : F32} (h : IsComponent u a) (hleast : IsDatum least false u) :
    inClosed (fmul least least) fOne (fmul a a) = true := by
  have hone : fmul fOne fOne = fOne := by decide
  have hnan : isNaN (fmul a a) = false := by
    rw [fmul_self_finite h.finite]
    exact isNaN_roundF32 _ _ _
  have hlo := signedUnits_square_mono hleast.finite h.finite (hleast.magnitude ▸ h.ge)
  have hhi := signedUnits_square_mono h.finite isDatum_fOne.finite
    (isDatum_fOne.magnitude ▸ units_le_of_componentInDomain h.inDomain)
  rw [hone] at hhi
  exact (inClosed_iff _ _ _).mpr ⟨hnan, hlo, hhi⟩

theorem inClosed_square_decodeX (c : BitVec 16) : inClosed 0x2F800000 fOne (fmul (decodeX c) (decodeX c)) = true := by
  have hleast : fmul 0x37800000 0x37800000 = 0x2F800000 := by decide
  exact hleast ▸ (isComponent_decodeX c).inClosed_square ⟨by decide, by decide, by decide⟩

theorem inClosed_square_decodeY (c : BitVec 15) : inClosed 0x30800000 fOne (fmul (decodeY c) (decodeY c)) = true := by
  have hleast : fmul 0x38000000 0x38000000 = 0x30800000 := by decide
  exact hleast ▸ (isComponent_decodeY c).inClosed_square ⟨by decide, by decide, by decide⟩

/-- The sum of two data in finite ranges lies between the sums of the ends. -/
theorem inClosed_fadd {lo hi a lo' hi' b : F32} (hlo : isFinite lo = true) (hhi : isFinite hi = true)
    (hlo' : isFinite lo' = true) (hhi' : isFinite hi' = true) (ha : inClosed lo hi a = true)
    (hb : inClosed lo' hi' b = true) : inClosed (fadd lo lo') (fadd hi hi') (fadd a b) = true := by
  have hafin := isFinite_of_inClosed hlo hhi ha
  have hbfin := isFinite_of_inClosed hlo' hhi' hb
  obtain ⟨-, hage, hale⟩ := (inClosed_iff _ _ _).mp ha
  obtain ⟨-, hbge, hble⟩ := (inClosed_iff _ _ _).mp hb
  exact (inClosed_iff _ _ _).mpr ⟨isNaN_fadd_finite hafin hbfin, signedUnits_fadd_mono hlo hlo' hafin hbfin hage hbge,
    signedUnits_fadd_mono hafin hbfin hhi hhi' hale hble⟩

/-- The sum of the squares is in [1.25 * 2^-30, 2]. -/
theorem inClosed_sum (cx : BitVec 16) (cy : BitVec 15) : inClosed 0x30A00000 fTwo
    (fadd (fmul (decodeX cx) (decodeX cx)) (fmul (decodeY cy) (decodeY cy))) = true := by
  have hlo : fadd 0x2F800000 0x30800000 = 0x30A00000 := by decide
  have hhi : fadd fOne fOne = fTwo := by decide
  exact hlo ▸ hhi ▸ inClosed_fadd (by decide) isDatum_fOne.finite (by decide) isDatum_fOne.finite
    (inClosed_square_decodeX cx) (inClosed_square_decodeY cy)

/-- 1 minus a sum in that range is in [-1, 1]. -/
theorem inClosed_one_sub {sum : F32} (h : inClosed 0x30A00000 fTwo sum = true) :
    inClosed fNegOne fOne (fsub fOne sum) = true := by
  have hfin : isFinite sum = true := isFinite_of_inClosed (by decide) isDatum_fTwo.finite h
  obtain ⟨-, hge, hle⟩ := (inClosed_iff _ _ _).mp h
  have hends : fsub fOne fTwo = fNegOne ∧ fsub fOne 0x30A00000 = fOne := by decide
  have hlo := signedUnits_fsub_antitone isDatum_fOne.finite hfin isDatum_fTwo.finite hle
  have hhi := signedUnits_fsub_antitone isDatum_fOne.finite (b := 0x30A00000) (by decide) hfin hge
  rw [hends.1] at hlo
  rw [hends.2] at hhi
  exact (inClosed_iff _ _ _).mpr ⟨isNaN_fadd_finite isDatum_fOne.finite ((isFinite_fneg sum).trans hfin), hlo, hhi⟩

/-- Up to 2^-25 the sum is lost beside 1. -/
theorem one_sub_of_small {sum : F32} (h : inClosed 0x30A00000 fTwo sum = true) (hsmall : signedUnits sum ≤ 2 ^ 124) :
    fsub fOne sum = fOne := by
  have hfin : isFinite sum = true := isFinite_of_inClosed (by decide) isDatum_fTwo.finite h
  obtain ⟨-, -, hle⟩ := (inClosed_iff _ _ _).mp (inClosed_one_sub h)
  have hpoint : signedUnits 0x33000000 = 2 ^ 124 ∧ fsub fOne 0x33000000 = fOne := by decide
  have hge := signedUnits_fsub_antitone isDatum_fOne.finite hfin (b' := 0x33000000) (by decide)
    (hsmall.trans hpoint.1.ge)
  rw [hpoint.2] at hge
  exact eq_of_signedUnits_eq (le_antisymm hle hge) (by decide)

/-- Settles O31: each part by the range of the parts before it. -/
theorem radicandIsNegativeExactlyOutsideDisk : Obligations.RadicandIsNegativeExactlyOutsideDisk := by
  rintro cx cy _ _ _ _ rfl rfl rfl rfl
  have hsum := inClosed_sum cx cy
  have hfin := isFinite_of_inClosed (by decide) isDatum_fTwo.finite hsum
  have hrad := inClosed_one_sub hsum
  obtain ⟨hnan, -, -⟩ := (inClosed_iff _ _ _).mp hrad
  have hzero : signedUnits fZero = 0 := by decide
  refine ⟨rfl, inClosed_square_decodeX cx, inClosed_square_decodeY cy, hsum, hrad, one_sub_of_small hsum,
    fsub_ne_fNegZero isDatum_fOne.finite hfin isDatum_fOne.sign, hnan, ?_⟩
  rw [flt_iff, flt_iff, hzero, radicand, signedUnits_fsub_neg_iff isDatum_fOne.finite hfin]
  exact ⟨fun ⟨_, _, h⟩ => ⟨by decide, isNaN_of_isFinite hfin, h⟩, fun ⟨_, _, h⟩ => ⟨hnan, by decide, h⟩⟩

end Sys2Proof.Proofs
end

section
/-! The root and its guard: the guarded radicand is never -0.0, so its root has a clear sign bit, and a product by 1.0
or -1.0 only sets the sign (42_decoder.md R124, R125). -/

namespace Sys2Proof.Proofs

open Sys2Proof Sys2Proof.Machine Sys2Proof.Laws

/-! ### The root -/

theorem fsqrt_of_isZero {a : F32} (h : isZero a = true) : fsqrt a = a := by
  have hnan : isNaN a = false := by simp_all [isZero, isNaN]
  simp [fsqrt, hnan, h]

theorem eq_fNegZero {a : F32} (hs : signBit a = true) (h0 : isZero a = true) : a = fNegZero :=
  eq_of_signBit_units_eq (hs.trans (by decide)) (((isZero_iff_units a).mp h0).trans (by decide))

/-- The root has a clear sign bit, for every datum but -0.0. -/
theorem signBit_fsqrt {a : F32} (h : a ≠ fNegZero) : signBit (fsqrt a) = false := by
  have hnan : signBit canonicalNaN = false := by decide
  unfold fsqrt
  split_ifs with h1 h2 h3 h4
  · exact hnan
  · exact Bool.eq_false_of_not_eq_true fun hs => h (eq_fNegZero hs h2)
  · exact hnan
  · exact Bool.eq_false_of_not_eq_true h3
  · exact signBit_roundF32 _ _ _

theorem units_fsqrt_mono {a b : F32} (ha : isFinite a = true) (hb : isFinite b = true) (has : signBit a = false)
    (hbs : signBit b = false) (h0 : isZero a = false) (hle : units a ≤ units b) :
    units (fsqrt a) ≤ units (fsqrt b) := by
  have h0' : isZero b = false := isZero_eq_false.mpr ((isZero_eq_false.mp h0).trans_le hle)
  rcases hle.eq_or_lt with heq | hlt
  · rw [eq_of_signBit_units_eq (has.trans hbs.symm) heq]
  · have hlt' : (units a : ℝ) < units b := by exact_mod_cast hlt
    obtain ⟨hroot, -⟩ := rootIsExactRootRoundedOnce
    exact RoundsTo.units_le_of_lt (hroot a ha has h0) (hroot b hb hbs h0')
      (Real.sqrt_lt_sqrt (by positivity) (by gcongr))

/-- `a` is in [+0.0, 1.0], -0.0 excluded. -/
structure InUnit (a : F32) : Prop where
  finite : isFinite a = true
  sign : signBit a = false
  le : units a ≤ 2 ^ 149

theorem InUnit.signedUnits_eq {a : F32} (h : InUnit a) : signedUnits a = units a := by
  rw [signedUnits, h.sign, if_neg Bool.false_ne_true]

theorem InUnit.inClosed {a : F32} (h : InUnit a) : inClosed fZero fOne a = true := by
  have hzero : signedUnits fZero = 0 := by decide
  have hle := h.le
  refine (inClosed_iff _ _ _).mpr ⟨isNaN_of_isFinite h.finite, ?_⟩
  rw [hzero, h.signedUnits_eq, isDatum_fOne.signedUnits_eq, if_neg Bool.false_ne_true]
  omega

theorem inUnit_of_componentInDomain {a : F32} (h : componentInDomain a = true) (hnonneg : 0 ≤ signedUnits a)
    (hne : a ≠ fNegZero) : InUnit a := by
  refine ⟨isFinite_of_componentInDomain h, Bool.eq_false_of_not_eq_true fun hs => ?_, units_le_of_componentInDomain h⟩
  cases h0 : isZero a with
  | true => exact hne (eq_fNegZero hs h0)
  | false => exact hnonneg.not_gt ((signedUnits_neg_iff a).mpr ⟨hs, h0⟩)

/-- The root of a datum in [+0.0, 1.0] is there too. -/
theorem inUnit_fsqrt {a : F32} (h : InUnit a) : InUnit (fsqrt a) := by
  cases h0 : isZero a with
  | true => rwa [fsqrt_of_isZero h0]
  | false =>
    have hone : units (fsqrt fOne) = 2 ^ 149 := by decide
    have hle := units_fsqrt_mono h.finite isDatum_fOne.finite h.sign isDatum_fOne.sign h0
      (h.le.trans_eq isDatum_fOne.magnitude.symm)
    rw [hone] at hle
    obtain ⟨hroot, -⟩ := rootIsExactRootRoundedOnce
    obtain ⟨hnan, hsign, -, -⟩ := hroot a h.finite h.sign h0
    have hfin : isFinite (fsqrt a) = true := (isInf_or_isFinite hnan).resolve_left fun hinf => by
      rw [(isInf_iff_units _).mp hinf] at hle
      exact absurd ((Nat.pow_le_pow_iff_right Nat.one_lt_two).mp hle) (by norm_num)
    exact ⟨hfin, hsign, hle⟩

/-! ### The guarded radicand -/

/-- What O31 says of the radicand as an operand of the root. -/
theorem radicand_spec (cx : BitVec 16) (cy : BitVec 15) :
    componentInDomain (radicand (decodeX cx) (decodeY cy)) = true ∧ radicand (decodeX cx) (decodeY cy) ≠ fNegZero := by
  obtain ⟨-, -, -, -, hdomain, -, hne, -, -⟩ :=
    radicandIsNegativeExactlyOutsideDisk cx cy _ _ _ _ rfl rfl rfl rfl
  exact ⟨hdomain, hne⟩

theorem guardRadicand_of_error {rad : F32} (h : domainErrorFlag rad = true) : guardRadicand .clamp rad = fZero := by
  simp [guardRadicand, h]

theorem guardRadicand_nan (rad : F32) : guardRadicand .nan rad = rad := rfl

theorem domainErrorFlag_iff {rad : F32} (h : isNaN rad = false) : domainErrorFlag rad = true ↔ signedUnits rad < 0 := by
  have hzero : signedUnits fZero = 0 := by decide
  have hnan : isNaN fZero = false := by decide
  rw [domainErrorFlag, flt_iff, hzero]
  exact ⟨fun ⟨_, _, hlt⟩ => hlt, fun hlt => ⟨h, hnan, hlt⟩⟩

theorem guardRadicand_ne_fNegZero (policy : RadicandPolicy) {rad : F32} (h : rad ≠ fNegZero) :
    guardRadicand policy rad ≠ fNegZero := by
  cases herr : domainErrorFlag rad with
  | false => rwa [guardRadicand_of_not_error policy herr]
  | true =>
    cases policy with
    | clamp =>
      rw [guardRadicand_of_error herr]
      decide
    | nan => rwa [guardRadicand_nan]

theorem inUnit_guardRadicand {rad : F32} (h : componentInDomain rad = true) (hne : rad ≠ fNegZero) :
    InUnit (guardRadicand .clamp rad) := by
  have hnan := isNaN_of_isFinite (isFinite_of_componentInDomain h)
  cases herr : domainErrorFlag rad with
  | true =>
    rw [guardRadicand_of_error herr]
    exact ⟨by decide, by decide, by decide⟩
  | false =>
    rw [guardRadicand_of_not_error .clamp herr]
    exact inUnit_of_componentInDomain h (not_lt.mp fun hlt => by simp [(domainErrorFlag_iff hnan).mpr hlt] at herr) hne

/-! ### The sign -/

/-- A product by a datum of magnitude 1 only changes the sign. -/
theorem isDatum_fmul_one {a c : F32} {t : Bool} (ha : isFinite a = true) (hle : units a ≤ 2 ^ 149)
    (hc : IsDatum c t (2 ^ 149)) : IsDatum (fmul a c) (signBit a != t) (units a) := by
  have hexp := expField_le_of_units_lt (hle.trans_lt (Nat.pow_lt_pow_right Nat.one_lt_two (by norm_num : 149 < 150)))
  rw [(isDatum_self ha).fmul_eq hc, units]
  exact isDatum_roundF32_exact _ (by positivity) (significand_lt a) (by omega)

theorem signedRoot_eq_fmul (r : F32) (s : Bool) : signedRoot r s = fmul (fsqrt r) (if s then fNegOne else fOne) := rfl

/-- The root of a datum in [+0.0, 1.0] as z: the flag becomes its sign bit. -/
theorem signedRoot_eq {r : F32} (h : InUnit r) (s : Bool) :
    signedRoot r s = if s then fneg (fsqrt r) else fsqrt r := by
  have hmag := inUnit_fsqrt h
  rw [signedRoot_eq_fmul]
  cases s with
  | false =>
    rw [if_neg Bool.false_ne_true, if_neg Bool.false_ne_true]
    have hprod := isDatum_fmul_one hmag.finite hmag.le isDatum_fOne
    rw [Bool.bne_false] at hprod
    exact hprod.eq (isDatum_self hmag.finite)
  | true =>
    rw [if_pos rfl, if_pos rfl]
    have hprod := isDatum_fmul_one hmag.finite hmag.le isDatum_fNegOne
    rw [Bool.bne_true] at hprod
    exact hprod.eq ⟨(isFinite_fneg _).trans hmag.finite, signBit_fneg _, units_fneg _⟩

/-- The datum that UNPACK takes the root of under `CLAMP`. -/
theorem inUnit_guarded_radicand (w : Word) :
    InUnit (guardRadicand .clamp (radicand (decodeX (fieldX w)) (decodeY (fieldY w)))) := by
  obtain ⟨hdomain, hne⟩ := radicand_spec (fieldX w) (fieldY w)
  exact inUnit_guardRadicand hdomain hne

end Sys2Proof.Proofs
end

section
/-! The settlement of O33, O34 and O32: z is a root in [+0.0, 1.0] with the flag as its sign, and the policies differ
for a negative radicand only (42_decoder.md R124 to R127). -/

namespace Sys2Proof.Proofs

open Sys2Proof Sys2Proof.Machine Sys2Proof.Laws

/-! ### Sign and range -/

/-- Settles O33, by the root of the guarded radicand and its sign. -/
theorem signOfZIsTheFlag : Obligations.SignOfZIsTheFlag := by
  rintro w _ rfl
  have hmag := inUnit_fsqrt (inUnit_guarded_radicand w)
  have hz := signedRoot_eq (inUnit_guarded_radicand w) (fieldS w)
  rw [unpackWord_z]
  refine ⟨hmag.inClosed, hmag.sign, signedRoot_eq_fmul _ _, hz, ?_⟩
  rw [hz]
  split
  next hs => rw [signBit_fneg, hmag.sign, hs, Bool.not_false]
  next hs => rw [hmag.sign, Bool.eq_false_of_not_eq_true hs]

theorem componentInDomain_signed {a : F32} (h : InUnit a) (s : Bool) :
    componentInDomain (if s then fneg a else a) = true := by
  have hle := h.le
  have hfin : isFinite (fneg a) = true := (isFinite_fneg a).trans h.finite
  rw [componentInDomain, inClosed_iff, isDatum_fNegOne.signedUnits_eq, isDatum_fOne.signedUnits_eq, if_pos rfl,
    if_neg Bool.false_ne_true]
  cases s with
  | false =>
    rw [if_neg Bool.false_ne_true, h.signedUnits_eq]
    exact ⟨isNaN_of_isFinite h.finite, by omega, by omega⟩
  | true =>
    rw [if_pos rfl, signedUnits_fneg, h.signedUnits_eq]
    exact ⟨isNaN_of_isFinite hfin, by omega, by omega⟩

/-- Settles O34: the components are those of O30, and z is a root in [+0.0, 1.0] with a sign. -/
theorem unpackIsTotalAndFinite : Obligations.UnpackIsTotalAndFinite := by
  refine ⟨fun w => ?_, fun s w => ⟨_, exec_unpack w s⟩⟩
  have hx := isComponent_decodeX (fieldX w)
  have hy := isComponent_decodeY (fieldY w)
  have hz := componentInDomain_signed (inUnit_fsqrt (inUnit_guarded_radicand w)) (fieldS w)
  rw [← signedRoot_eq (inUnit_guarded_radicand w)] at hz
  rw [unpackWord_x, unpackWord_y, unpackWord_z]
  exact ⟨hx.finite, hy.finite, isFinite_of_componentInDomain hz, hx.inDomain, hy.inDomain, hz,
    hx.not_zero (by positivity), hy.not_zero (by positivity)⟩

/-! ### The policies -/

/-- The root of zero with the flag as its sign. -/
theorem signedRoot_fZero (s : Bool) : signedRoot fZero s = if s then fNegZero else fZero := by
  cases s <;> decide

/-- A negative radicand has a NaN for a root, and so for z. -/
theorem isNaN_signedRoot {rad : F32} (hnan : isNaN rad = false) (hneg : signedUnits rad < 0) (s : Bool) :
    isNaN (signedRoot rad s) = true := by
  obtain ⟨hsign, h0⟩ := (signedUnits_neg_iff rad).mp hneg
  obtain ⟨-, -, -, -, hroot, -⟩ := rootIsExactRootRoundedOnce
  rw [signedRoot, fmul_nan (.inl (hroot rad hnan h0 hsign)), isNaN_canonicalNaN]

/-- Settles O32: the policies differ in the guard only, and there only for a negative radicand. -/
theorem negativeRadicandIsClampedAndSignalled : Obligations.NegativeRadicandIsClampedAndSignalled := by
  intro w
  obtain ⟨hdomain, -⟩ := radicand_spec (fieldX w) (fieldY w)
  have hnan := isNaN_of_isFinite (isFinite_of_componentInDomain hdomain)
  refine ⟨rfl, rfl, rfl, Iff.rfl, fun herr => ?_, fun herr => ?_⟩ <;> rw [unpackWord_derr] at herr
  · rw [unpackWord_z, unpackWord_z, guardRadicand_of_error herr, guardRadicand_nan]
    exact ⟨signedRoot_fZero _, isNaN_signedRoot hnan ((domainErrorFlag_iff hnan).mp herr) _⟩
  · rw [unpackWord, unpackWord, guardRadicand_of_not_error .clamp herr, guardRadicand_of_not_error .nan herr]

end Sys2Proof.Proofs
end

section
/-! The settlement of O37: REPACK gives back the codes, and the flag unless the decoded z is a zero or a NaN
(42_decoder.md R130 (f)). -/

namespace Sys2Proof.Proofs

open Sys2Proof Sys2Proof.Machine Sys2Proof.Laws

/-- A root with a clear flag is not negative, under either policy. -/
theorem zSignFlag_signedRoot_false {r : F32} (h : r ≠ fNegZero) : zSignFlag (signedRoot r false) = false := by
  refine Bool.eq_false_of_not_eq_true fun hflag => ?_
  obtain ⟨hsign, -, hnan⟩ := (zSignFlag_iff _).mp hflag
  rw [signedRoot, if_neg Bool.false_ne_true] at hsign hnan
  rw [signBit_fmul hnan, signBit_fsqrt h, isDatum_fOne.sign] at hsign
  exact absurd hsign (by decide)

/-- Settles O37: the codes by O36; the flag of the new word is the strict sign of the decoded z. -/
theorem repackReproducesAllButLostSigns : Obligations.RepackReproducesAllButLostSigns := by
  intro policy w
  obtain ⟨hcodesX, hcodesY⟩ := requantizationIsIdentity
  obtain ⟨-, hne⟩ := radicand_spec (fieldX w) (fieldY w)
  have hx : (resultVec (unpackWord policy w)).x = decodeX (fieldX w) := rfl
  have hy : (resultVec (unpackWord policy w)).y = decodeY (fieldY w) := rfl
  have hz : (resultVec (unpackWord policy w)).z = (unpackWord policy w).z := rfl
  refine ⟨?_, ?_, ?_⟩
  · rw [repack, fieldX_packWord, hx, hcodesX, extractLsb'_setWidth _ (by omega)]
  · rw [repack, fieldY_packWord, hy, hcodesY, extractLsb'_setWidth _ (by omega)]
  · rw [repack, fieldS_packWord, hz, ← zSignFlag]
    cases hs : fieldS w with
    | true => exact ⟨.inr, fun h => h.resolve_left Bool.noConfusion⟩
    | false =>
      have hflag : zSignFlag (unpackWord policy w).z = false := by
        rw [unpackWord_z, hs]
        exact zSignFlag_signedRoot_false (guardRadicand_ne_fNegZero policy hne)
      exact iff_of_true hflag (.inl rfl)

end Sys2Proof.Proofs
end

section
/-! The settlement of O42: this hardware has no fault and no refusal (60_exceptions.md R140). -/

namespace Sys2Proof.Proofs

open Sys2Proof Sys2Proof.Machine Sys2Proof.Laws

/-- Every step answers a next state. -/
theorem step_next (s : State) : ∃ t, step s = .next t := by
  cases hs : s.schedule with
  | nil => exact ⟨s.idleCycle, step_nil hs⟩
  | cons e rest => exact ⟨_, step_cons hs⟩

/-- Settles O42: a step idles both units or clocks the unit of the next event, and exec answers by cases on the
instruction. -/
theorem everyStepIsANextState : Obligations.EveryStepIsANextState :=
  ⟨step_next, exec_next⟩

end Sys2Proof.Proofs
end

section
/-! The settlement of O50, O48 and O49: a reset edge leaves a pipeline empty whatever it held and was offered, and an
empty pipeline presents nothing and stays empty for as long as nothing begins (70_reset_and_hazards.md R161, R162,
R169). -/

namespace Sys2Proof.Proofs

open Sys2Proof Sys2Proof.Machine Sys2Proof.Laws

/-- No transaction is in flight in the pipeline (70_reset_and_hazards.md R170). -/
def Pipe.Empty {α β : Type} (p : Pipe α β) : Prop := p.queue = List.replicate p.latency none

theorem encPipe_empty_iff (s : State) : (encPipe s).Empty ↔ s.encEmpty := Iff.rfl

theorem decPipe_empty_iff (s : State) : (decPipe s).Empty ↔ s.decEmpty := Iff.rfl

section
variable {α β : Type} {p : Pipe α β}

/-! ### A pipeline at a reset edge -/

theorem clock_reset_empty (p : Pipe α β) {drive : Bool × Option α} (h : drive.1 = true) : (p.clock drive).Empty := by
  simp [Pipe.Empty, Pipe.clock, h, clockQueue_reset]

/-- With latency 0 nothing is in flight, so the cycle of a reset edge presents nothing
(70_reset_and_hazards.md R169). -/
theorem clock_reset_presents_nothing (hqueue : p.queue = []) {drive : Bool × Option α} (h : drive.1 = true) :
    (p.clock drive).out = none ∧ (p.clock drive).log = p.log := by
  simp [Pipe.clock, h, clockQueue_reset, hqueue]

/-! ### An empty pipeline in which nothing begins -/

/-- A cycle in which nothing begins changes nothing in an empty pipeline but its port and its cycle number. -/
theorem clock_of_empty (hempty : p.Empty) {drive : Bool × Option α} (h : drive.1 = true ∨ drive.2 = none) :
    p.clock drive = { p with out := none, cycle := p.cycle + 1 } := by
  obtain ⟨latency, image, queue, out, cycle, log⟩ := p
  obtain rfl : queue = List.replicate latency none := hempty
  simp [Pipe.clock, clockQueue_empty latency drive.1 drive.2 h]

/-- Cycles in which nothing begins leave an empty pipeline empty and present nothing. -/
theorem clockAll_of_empty {drives : List (Bool × Option α)} (hempty : p.Empty)
    (hdrives : ∀ drive ∈ drives, drive.1 = true ∨ drive.2 = none) :
    (drives.foldl Pipe.clock p).Empty ∧ (drives.foldl Pipe.clock p).log = p.log ∧
      (drives ≠ [] → (drives.foldl Pipe.clock p).out = none) := by
  induction drives generalizing p with
  | nil => exact ⟨hempty, rfl, fun h => absurd rfl h⟩
  | cons drive drives ih =>
    obtain ⟨hdrive, hrest⟩ := List.forall_mem_cons.mp hdrives
    rw [List.foldl_cons, clock_of_empty hempty hdrive]
    obtain ⟨hempty', hlog, hout⟩ := ih (p := { p with out := none, cycle := p.cycle + 1 }) hempty hrest
    refine ⟨hempty', hlog, fun _ => ?_⟩
    cases drives with
    | nil => rfl
    | cons _ _ => exact hout (List.cons_ne_nil _ _)

end

/-! ### The decoder's inputs in a run, wired cycles too -/

/-- The decoder's inputs in its cycles, wired to the encoder or not, when the events are clocked in order. -/
def decInputsFrom : State → List Event → List DecIn
  | _, [] => []
  | s, e :: es => (s.decCycleInputs e).toList ++ decInputsFrom (s.clock e) es

/-- A run over any schedule runs the decoder on the inputs that its cycles have in that run. -/
theorem clockAll_decPipe_from (es : List Event) (s : State) :
    decPipe (clockAll es s) = ((decInputsFrom s es).map decDrive).foldl Pipe.clock (decPipe s) := by
  induction es generalizing s with
  | nil => rfl
  | cons e es ih =>
    cases e with
    | enc i => exact ih (s.encCycle i)
    | dec j => exact ih (s.decCycle j)
    | decWired rst => exact ih (s.decCycle (s.wiredIn rst))

theorem clock_withSchedule (s : State) (rest : List Event) (e : Event) :
    ({ s with schedule := rest } : State).clock e = { s.clock e with schedule := rest } := by
  cases e <;> rfl

/-- The inputs of a run do not depend on what is scheduled after it. -/
theorem decInputsFrom_withSchedule (es rest : List Event) (s : State) :
    decInputsFrom { s with schedule := rest } es = decInputsFrom s es := by
  induction es generalizing s with
  | nil => rfl
  | cons e es ih => rw [decInputsFrom, decInputsFrom, decCycleInputs_schedule, clock_withSchedule, ih]

theorem decoderBeginsNothing_iff (es : List Event) (s : State) :
    decoderBeginsNothing s es = true ↔ ∀ j ∈ decInputsFrom s es, j.valid = false ∨ j.rst = true := by
  induction es generalizing s with
  | nil => simp [decoderBeginsNothing, decInputsFrom]
  | cons e es ih =>
    rw [decoderBeginsNothing, decInputsFrom, Bool.and_eq_true, ih, List.forall_mem_append]
    refine and_congr_left' ?_
    cases s.decCycleInputs e with
    | none => simp
    | some j => simp [← decBegins_isNone]

/-- A schedule with a decoder event gives the decoder a cycle. -/
theorem decInputsFrom_ne_nil {es : List Event} (h : es.any Event.isDecoder = true) (s : State) :
    decInputsFrom s es ≠ [] := by
  induction es generalizing s with
  | nil => cases h
  | cons e es ih =>
    cases e with
    | enc i => exact ih h (s.encCycle i)
    | dec j => exact List.cons_ne_nil _ _
    | decWired rst => exact List.cons_ne_nil _ _

/-! ### After the reset edge -/

theorem encDrive_begins_nothing {i : EncIn} (h : i.valid = false ∨ i.rst = true) :
    (encDrive i).1 = true ∨ (encDrive i).2 = none :=
  h.symm.imp_right encOffered_none

theorem decDrive_begins_nothing {j : DecIn} (h : j.valid = false ∨ j.rst = true) :
    (decDrive j).1 = true ∨ (decDrive j).2 = none :=
  h.symm.imp_right decOffered_none

/-- An empty encoder gives no result in a run in which nothing begins in it. -/
theorem clockAll_encEmpty {es : List Event} {s : State} (hempty : s.encEmpty)
    (hnothing : ∀ i ∈ encInputs es, i.valid = false ∨ i.rst = true) :
    (clockAll es s).encEmpty ∧ (clockAll es s).encLog = s.encLog ∧
      (encInputs es ≠ [] → (clockAll es s).encValidO = false) := by
  obtain ⟨hqueue, hlog, hout⟩ := clockAll_of_empty ((encPipe_empty_iff s).mpr hempty)
    (List.forall_mem_map.mpr fun i hi => encDrive_begins_nothing (hnothing i hi))
  rw [← clockAll_encPipe] at hqueue hlog hout
  exact ⟨hqueue, hlog, fun h => encPorts_none (hout (mt List.map_eq_nil_iff.mp h))⟩

/-- An empty decoder gives no result in a run in which nothing begins in it, wired or not. -/
theorem clockAll_decEmpty {es : List Event} {s : State} (hempty : s.decEmpty)
    (hnothing : decoderBeginsNothing s es = true) :
    (clockAll es s).decEmpty ∧ (clockAll es s).decLog = s.decLog ∧
      (es.any Event.isDecoder = true → (clockAll es s).decValidO = false ∧ (clockAll es s).decDerrO = false) := by
  have hinputs := (decoderBeginsNothing_iff es s).mp hnothing
  obtain ⟨hqueue, hlog, hout⟩ := clockAll_of_empty ((decPipe_empty_iff s).mpr hempty)
    (List.forall_mem_map.mpr fun j hj => decDrive_begins_nothing (hinputs j hj))
  rw [← clockAll_decPipe_from] at hqueue hlog hout
  exact ⟨hqueue, hlog, fun h => decPorts_none (hout (mt List.map_eq_nil_iff.mp (decInputsFrom_ne_nil h s)))⟩

theorem encCycle_reset_encEmpty (s : State) {i : EncIn} (h : i.rst = true) : (s.encCycle i).encEmpty :=
  clock_reset_empty (encPipe s) (drive := encDrive i) h

theorem decCycle_reset_decEmpty (s : State) {i : DecIn} (h : i.rst = true) : (s.decCycle i).decEmpty :=
  clock_reset_empty (decPipe s) (drive := decDrive i) h

/-- The first step of a run over a schedule is the cycle of its first event, and the rest of the run goes on from
there. -/
theorem run_after_step {s t : State} {e : Event} {es rest : List Event} (hsched : s.schedule = e :: (es ++ rest))
    (hstep : step s = .next t) :
    t = ({ s with schedule := es ++ rest } : State).clock e ∧
      RunsTo (es.length + 1) s (clockAll es { t with schedule := rest }) := by
  rw [step_cons hsched] at hstep
  obtain rfl := Host.Outcome.next.inj hstep
  have hrun := run_schedule (e :: es) rest s hsched
  rw [clockAll, clock_withSchedule] at hrun
  exact ⟨rfl, by rwa [clock_withSchedule]⟩

/-- Settles O50: the reset edge leaves the unit empty, and it stays so and presents nothing in the run that follows. -/
theorem transactionsInFlightAtResetAreDropped : Obligations.TransactionsInFlightAtResetAreDropped := by
  refine ⟨fun s t i es rest hrst hsched hstep hnothing => ?_,
    fun s t e i es rest hin hrst hsched hstep hnothing => ?_⟩
  · obtain ⟨ht, hrun⟩ := run_after_step hsched hstep
    have hreset : t.encEmpty := ht ▸ encCycle_reset_encEmpty _ hrst
    obtain ⟨hempty, hlog, hvalid⟩ := clockAll_encEmpty (s := { t with schedule := rest }) hreset hnothing
    exact ⟨_, hrun, hlog, hempty, hvalid⟩
  · obtain ⟨ht, hrun⟩ := run_after_step hsched hstep
    rw [clock_decCycle ((decCycleInputs_schedule s _ e).trans hin)] at ht
    have hreset : t.decEmpty := ht ▸ decCycle_reset_decEmpty _ hrst
    have hlater : decoderBeginsNothing { t with schedule := rest } es = true := by
      rwa [decoderBeginsNothing_iff, decInputsFrom_withSchedule, ← decoderBeginsNothing_iff]
    obtain ⟨hempty, hlog, hports⟩ := clockAll_decEmpty (s := { t with schedule := rest }) hreset hlater
    exact ⟨_, hrun, hlog, hempty, hports⟩

/-! ### The reset edge itself -/

/-- At a reset edge the encoder's other inputs are ignored (70_reset_and_hazards.md R169). -/
theorem encCycle_reset_congr (s : State) {i j : EncIn} (hi : i.rst = true) (hj : j.rst = true) :
    s.encCycle i = s.encCycle j := by
  simp only [State.encCycle, hi, hj, clockQueue_reset]

/-- At a reset edge the decoder's other inputs are ignored (70_reset_and_hazards.md R169). -/
theorem decCycle_reset_congr (s : State) {i j : DecIn} (hi : i.rst = true) (hj : j.rst = true) :
    s.decCycle i = s.decCycle j := by
  simp only [State.decCycle, hi, hj, clockQueue_reset]

/-- Settles O48: the step is one encoder cycle that ends in a reset edge. -/
theorem encoderResetEdgeEmptiesItsQueue : Obligations.EncoderResetEdgeEmptiesItsQueue := by
  intro s i rest hsched hrst
  refine ⟨_, step_cons hsched, encCycle_reset_encEmpty _ hrst, fun hqueue => ?_, fun j hj => ?_,
    encCycle_dec _ i, encCycle_decLog _ i, encCycle_config _ i, encCycle_schedule _ i⟩
  · obtain ⟨hout, hlog⟩ := clock_reset_presents_nothing (p := encPipe s) hqueue (drive := encDrive i) hrst
    exact ⟨encPorts_none hout, hlog⟩
  · rw [step_cons rfl]
    exact congrArg Host.Outcome.next (encCycle_reset_congr { s with schedule := rest } hj hrst)

/-- Settles O49: the step is one decoder cycle that ends in a reset edge, whether its inputs are wired or not. -/
theorem decoderResetEdgeEmptiesItsQueue : Obligations.DecoderResetEdgeEmptiesItsQueue := by
  intro s e rest i hsched hin hrst
  refine ⟨_, step_dec hsched hin, decCycle_reset_decEmpty _ hrst, fun hqueue => ?_, fun e' j hin' hj => ?_,
    decCycle_enc _ i, decCycle_encLog _ i, decCycle_config _ i, decCycle_schedule _ i⟩
  · obtain ⟨hout, hlog⟩ := clock_reset_presents_nothing (p := decPipe s) hqueue (drive := decDrive i) hrst
    exact and_assoc.mp ⟨decPorts_none hout, hlog⟩
  · rw [step_dec rfl ((decCycleInputs_schedule s _ e').trans hin')]
    exact congrArg Host.Outcome.next (decCycle_reset_congr { s with schedule := rest } hj hrst)

end Sys2Proof.Proofs
end

section
/-! The settlement of O56: a step with nothing scheduled shifts both pipelines by an empty entry, and as many empty
entries as a queue is deep drive all it holds out of it (70_reset_and_hazards.md R162, R164, R170). -/

namespace Sys2Proof.Proofs

open Sys2Proof Sys2Proof.Machine Sys2Proof.Laws

/-! ### A pipeline that drains -/

/-- Cycles that present nothing after the results add no result. -/
theorem stamp_append_replicate_none {β : Type} (t k : Nat) (rs : List (Option β)) :
    stamp t (rs ++ List.replicate k none) = stamp t rs := by
  induction rs generalizing t with
  | nil => simpa [stamp] using stamp_replicate_none_append t k ([] : List (Option β))
  | cons r rs ih => rw [List.cons_append, stamp, stamp, ih]

/-- Offered nothing for at least as many cycles as its queue is deep, a pipeline presents what was in flight, one entry
a cycle, and is left with empty entries only. -/
theorem shiftAll_none {α β : Type} (p : Pipe α β) {n : Nat} (hdepth : p.queue.length ≤ n) :
    ((List.replicate n none).foldl Pipe.shift p).log =
        p.log ++ stamp p.cycle (p.queue.map (Option.map p.image)) ∧
      ((List.replicate n none).foldl Pipe.shift p).queue = List.replicate p.queue.length none := by
  constructor
  · rw [shiftAll_log, Pipe.presents, List.length_replicate, List.take_append, List.take_of_length_le hdepth,
      List.take_replicate, List.map_append, List.map_replicate, Option.map_none, stamp_append_replicate_none]
  · rw [shiftAll_queue, List.length_replicate, List.drop_append, List.drop_eq_nil_of_le hdepth, List.nil_append,
      List.drop_replicate, Nat.sub_sub_self hdepth]

theorem encInFlightDue_eq_stamp (t : Nat) (queue : List (Option Vec3)) :
    encInFlightDue t queue = stamp t (queue.map (Option.map packWord)) := by
  induction queue generalizing t with
  | nil => rfl
  | cons v queue ih => simp [encInFlightDue, stamp, ih, Option.map_map, Function.comp_def]

theorem decInFlightDue_eq_stamp (policy : RadicandPolicy) (t : Nat) (queue : List (Option Word)) :
    decInFlightDue policy t queue = stamp t (queue.map (Option.map (unpackWord policy))) := by
  induction queue generalizing t with
  | nil => rfl
  | cons w queue ih => simp [decInFlightDue, stamp, ih, Option.map_map, Function.comp_def]

/-! ### The idle machine -/

theorem idleCycle_schedule (s : State) : s.idleCycle.schedule = s.schedule := rfl

theorem encPipe_idleCycle (s : State) : encPipe s.idleCycle = (encPipe s).shift none :=
  encPipe_encCycle_run s encIdle_rst

theorem decPipe_idleCycle (s : State) : decPipe s.idleCycle = (decPipe s).shift none :=
  decPipe_decCycle_run (s.encCycle .idle) decIdle_rst

/-- Idle cycles shift either unit by as many empty entries. -/
theorem iterate_idleCycle_pipe {α β : Type} {pipe : State → Pipe α β}
    (hpipe : ∀ s, pipe s.idleCycle = (pipe s).shift none) (n : Nat) (s : State) :
    pipe (State.idleCycle^[n] s) = (List.replicate n none).foldl Pipe.shift (pipe s) := by
  induction n generalizing s with
  | zero => rfl
  | succ n ih => rw [Function.iterate_succ_apply, ih, hpipe, List.replicate_succ, List.foldl_cons]

theorem iterate_idleCycle_frame (n : Nat) (s : State) :
    (State.idleCycle^[n] s).schedule = s.schedule ∧ (State.idleCycle^[n] s).config = s.config := by
  induction n generalizing s with
  | zero => exact ⟨rfl, rfl⟩
  | succ n ih =>
    obtain ⟨hschedule, hconfig⟩ := ih s.idleCycle
    exact ⟨hschedule.trans (idleCycle_schedule s), hconfig.trans (idleCycle_config s)⟩

/-- A run is its first step and the run from there. -/
theorem runsTo_succ {n : Nat} {s t u : State} (hstep : step s = .next t) (hrun : RunsTo n t u) :
    RunsTo (n + 1) s u := by
  have hcore : Sys2Proof.core.step s = .next t := hstep
  simp only [RunsTo, Host.Core.run, hcore]
  exact hrun

/-- A run with nothing scheduled idles both units in every step. -/
theorem run_idle (n : Nat) {s : State} (h : s.schedule = []) : RunsTo n s (State.idleCycle^[n] s) := by
  induction n generalizing s with
  | zero => rfl
  | succ n ih => exact runsTo_succ (step_nil h) (ih ((idleCycle_schedule s).trans h))

/-- A step with nothing scheduled is the two scheduled idle cycles. -/
theorem step_nil_eq_run {s : State} (h : s.schedule = []) :
    step s = Host.Core.run Sys2Proof.core 2 { s with schedule := [.enc .idle, .dec .idle] } := by
  have hrun := run_schedule [.enc .idle, .dec .idle] [] { s with schedule := [.enc .idle, .dec .idle] } rfl
  have hsame : ({ s with schedule := [] } : State) = s := by rw [← h]
  exact (step_nil h).trans ((congrArg (fun s => Host.Outcome.next s.idleCycle) hsame.symm).trans hrun.symm)

/-- Settles O56: each unit is shifted by `n` empty entries, at least as many as its queue is deep. -/
theorem idleMachineDrains : Obligations.IdleMachineDrains := by
  refine ⟨fun s h => step_nil_eq_run h, fun s n hdepths hsched hencLatency hdecLatency => ?_⟩
  obtain ⟨hencDepth, hdecDepth⟩ := hdepths
  obtain ⟨hschedule, hconfig⟩ := iterate_idleCycle_frame n s
  have henc := iterate_idleCycle_pipe encPipe_idleCycle n s
  have hdec := iterate_idleCycle_pipe decPipe_idleCycle n s
  obtain ⟨hencLog, hencQueue⟩ := shiftAll_none (encPipe s) (hencDepth.trans_le hencLatency)
  obtain ⟨hdecLog, hdecQueue⟩ := shiftAll_none (decPipe s) (hdecDepth.trans_le hdecLatency)
  have hencCycle := shiftAll_cycle (List.replicate n none) (encPipe s)
  have hdecCycle := shiftAll_cycle (List.replicate n none) (decPipe s)
  rw [← henc] at hencLog hencQueue hencCycle
  rw [← hdec] at hdecLog hdecQueue hdecCycle
  rw [encPipe_queue, encPipe_queue, hencDepth, ← hconfig] at hencQueue
  rw [decPipe_queue, decPipe_queue, hdecDepth, ← hconfig] at hdecQueue
  rw [List.length_replicate] at hencCycle hdecCycle
  refine ⟨_, run_idle n hsched, hencQueue, hdecQueue, hschedule.trans hsched, hconfig, hencCycle, hdecCycle, ?_, ?_⟩
  · rw [encInFlightDue_eq_stamp]; exact hencLog
  · rw [decInFlightDue_eq_stamp]; exact hdecLog

end Sys2Proof.Proofs
end

section
/-! The settlement of O4: the written-out words are instances of how each width is read, and a width of no port
reads as nothing. -/

namespace Sys2Proof.Proofs

open Sys2Proof Sys2Proof.Machine Sys2Proof.Laws

/-- A width that is no port's is decoded to nothing, whatever the bits. -/
theorem decodeTableWord_of_no_port {nbits : Nat} (h : tablePort nbits = none) (w : Nat) :
    decodeTableWord nbits w = none := by
  simp [decodeTableWord, h]

/-- Settles O4: the three slices of V-PK9's operand and the word of V-UP9, the latter also from its four bytes. -/
theorem sampleWordsDecode : Obligations.SampleWordsDecode :=
  ⟨decodeTableWord_96 0x3F19999A00000000BF4CCCCD, decodeTableWord_32 0xCCCC8001,
    decode_bytes (.atDecoder 0xCCCC8001), decodeTableWord_of_no_port rfl 0⟩

end Sys2Proof.Proofs
end
